-- ==== Sys2Proof/Word.lean ====
section
/-! DEFINITION. Words and word sequences of GF2CORE (spec/00_scope.md, R6).

A word is a bit vector of the instance's width: bit `i` is the coefficient of x^i. A sequence lists words least
significant first, so bit `i` of word `k` is the coefficient of x^(k*W + i). -/

namespace Sys2Proof

/-- A W-bit word: one Word of the source, the content of a word register (00_scope.md R6). -/
abbrev Word (w : Nat) := BitVec w

/-- A word sequence, word 0 first: the content of a polynomial buffer (00_scope.md R6). -/
abbrev Seq (w : Nat) := List (Word w)

/-- A command word (30_encoding.md R50). -/
abbrev CommandWord := BitVec 32

/-- What travels on the data lines of the register port; the widest register is 128 bits (20_memory.md R32, log 6). -/
abbrev PortData := BitVec 128

end Sys2Proof
end

