-- ==== Sys2Proof/Syntax.lean ====
section
/-! DEFINITION. The 27 commands of GF2CORE, one constructor per row of spec/opcode_table.json
(spec/30_encoding.md, R55). Operands stand in the order rd, re, ra, rb, imm16 of those the command has. -/

namespace Sys2Proof

/-- A word register f0 to f7 (10_state.md R10, 30_encoding.md R53). -/
abbrev FReg := Fin 8

/-- A polynomial buffer p0 to p7 (10_state.md R15, 30_encoding.md R53). -/
abbrev PReg := Fin 8

/-- The unsigned immediate (30_encoding.md R54). -/
abbrev Imm16 := BitVec 16

/-- A command (30_encoding.md R55). -/
inductive Instr where
  /-- SETMOD fa (R121) -/
  | setmod (ra : FReg)
  /-- DEFMOD (R122) -/
  | defmod
  /-- FZERO fd (R124) -/
  | fzero (rd : FReg)
  /-- FONE fd (R125) -/
  | fone (rd : FReg)
  /-- FADD fd, fa, fb (R126) -/
  | fadd (rd ra rb : FReg)
  /-- FMUL fd, fa, fb (R127) -/
  | fmul (rd ra rb : FReg)
  /-- FNEG fd, fa (R128) -/
  | fneg (rd ra : FReg)
  /-- FINV fd, fa (R129) -/
  | finv (rd ra : FReg)
  /-- FGINV fd, fa (R130) -/
  | fginv (rd ra : FReg)
  /-- FEXP fd, fa, fb (R131) -/
  | fexp (rd ra rb : FReg)
  /-- FDEG fa (R132) -/
  | fdeg (ra : FReg)
  /-- FBIT fa, imm16 (R133) -/
  | fbit (ra : FReg) (imm : Imm16)
  /-- FDIV fq, fr, fa, fb (R134) -/
  | fdiv (rd re ra rb : FReg)
  /-- FMDIV fq, fr, fa (R135) -/
  | fmdiv (rd re ra : FReg)
  /-- PZERO pd (R80) -/
  | pzero (rd : PReg)
  /-- PONE pd (R81) -/
  | pone (rd : PReg)
  /-- PADD pd, pa, pb (R82) -/
  | padd (rd ra rb : PReg)
  /-- PMUL pd, pa, pb (R83) -/
  | pmul (rd ra rb : PReg)
  /-- PNEG pd, pa (R84) -/
  | pneg (rd ra : PReg)
  /-- PDIV pq, pr, pa, pb (R92) -/
  | pdiv (rd re ra rb : PReg)
  /-- PSHL1 pd (R85) -/
  | pshl1 (rd : PReg)
  /-- PSHL pd, imm16 (R86) -/
  | pshl (rd : PReg) (imm : Imm16)
  /-- PSHR1 pd (R87) -/
  | pshr1 (rd : PReg)
  /-- PADDI pd, pa (R88) -/
  | paddi (rd ra : PReg)
  /-- PCLEAN pd (R89) -/
  | pclean (rd : PReg)
  /-- PDEG pa (R90) -/
  | pdeg (ra : PReg)
  /-- PBIT pa, imm16 (R91) -/
  | pbit (ra : PReg) (imm : Imm16)
deriving DecidableEq, Repr

end Sys2Proof
end

