-- ==== Sys2Proof/WellFormed.lean ====
section
/-! DEFINITION. Which commands are well formed: the operand constraints of spec/30_encoding.md R58 and R59. Every
other choice of operands is legal (R53, R57). -/

namespace Sys2Proof

/-- The operand constraints: two equal destinations are illegal in FDIV, FMDIV and PDIV (30_encoding.md R58), and
PADDI may not name one buffer twice (R59). -/
def Instr.wf : Instr → Bool
  | .fdiv rd re _ _ => rd != re
  | .fmdiv rd re _ => rd != re
  | .pdiv rd re _ _ => rd != re
  | .paddi rd ra => rd != ra
  | .setmod _ => true
  | .defmod => true
  | .fzero _ => true
  | .fone _ => true
  | .fadd _ _ _ => true
  | .fmul _ _ _ => true
  | .fneg _ _ => true
  | .finv _ _ => true
  | .fginv _ _ => true
  | .fexp _ _ _ => true
  | .fdeg _ => true
  | .fbit _ _ => true
  | .pzero _ => true
  | .pone _ => true
  | .padd _ _ _ => true
  | .pmul _ _ _ => true
  | .pneg _ _ => true
  | .pshl1 _ => true
  | .pshl _ _ => true
  | .pshr1 _ => true
  | .pclean _ => true
  | .pdeg _ => true
  | .pbit _ _ => true

end Sys2Proof
end

