-- ==== Sys2Proof/Decode.lean ====
section
/-! DEFINITION. The decoder, total on 32-bit words, and after it the encoder (spec/30_encoding.md).

Every rejected word is an IllegalCommand to the machine (R56); the decoder also says which part of R56 rejects it. -/

namespace Sys2Proof

/-- Why a word is illegal: the cases (a) to (e) of 30_encoding.md R56. To the machine they are all IllegalCommand. -/
inductive Illegal where
  /-- (a) the opcode is not in the table of R55 -/
  | unknownOpcode
  /-- (b), (c) bits 11:0 (format R) or 17:16 (format I) are not all zero -/
  | reservedBits
  /-- (d) a register field that the table marks unused is not zero -/
  | unusedField
  /-- (e) an operand constraint of R58 or R59 is violated -/
  | operandConstraint
deriving DecidableEq, Repr

/-! ### Fields of a command word -/

/-- Bits 31:24, the opcode (30_encoding.md R50). -/
def opField (cw : CommandWord) : BitVec 8 := cw.extractLsb' 24 8

/-- Bits 23:21, the first destination or the in-place buffer (30_encoding.md R51, R52). -/
def rdField (cw : CommandWord) : BitVec 3 := cw.extractLsb' 21 3

/-- Bits 20:18, the first source (30_encoding.md R51, R52). -/
def raField (cw : CommandWord) : BitVec 3 := cw.extractLsb' 18 3

/-- Bits 17:15, the second source of format R (30_encoding.md R51). -/
def rbField (cw : CommandWord) : BitVec 3 := cw.extractLsb' 15 3

/-- Bits 14:12, the second destination of format R (30_encoding.md R51). -/
def reField (cw : CommandWord) : BitVec 3 := cw.extractLsb' 12 3

/-- Bits 15:0, the immediate of format I (30_encoding.md R52, R54). -/
def immField (cw : CommandWord) : Imm16 := cw.extractLsb' 0 16

/-- A register field names a register 0 to 7 (30_encoding.md R53). -/
def regOf (field : BitVec 3) : Fin 8 := field.toFin

/-- The first destination. -/
def rdOf (cw : CommandWord) : Fin 8 := regOf (rdField cw)

/-- The first source. -/
def raOf (cw : CommandWord) : Fin 8 := regOf (raField cw)

/-- The second source. -/
def rbOf (cw : CommandWord) : Fin 8 := regOf (rbField cw)

/-- The second destination. -/
def reOf (cw : CommandWord) : Fin 8 := regOf (reField cw)

/-! ### Formats -/

/-- Which fields a command uses: the columns fmt, rd, ra, rb, re of the table of 30_encoding.md R55. -/
inductive Format where
  /-- format R with the register fields used -/
  | r (rd ra rb re : Bool)
  /-- format I with the register fields used -/
  | i (rd ra : Bool)
deriving DecidableEq, Repr

/-- The bits that must be zero are zero: 11:0 in format R (30_encoding.md R51), 17:16 in format I (R52). -/
def reservedZero (cw : CommandWord) : Format → Bool
  | .r _ _ _ _ => cw.extractLsb' 0 12 == 0#12
  | .i _ _ => cw.extractLsb' 16 2 == 0#2

/-- Every register field the command does not use is zero (30_encoding.md R55, R56 (d)). -/
def unusedZero (cw : CommandWord) : Format → Bool
  | .r rd ra rb re =>
    (rd || rdField cw == 0#3) && (ra || raField cw == 0#3) && (rb || rbField cw == 0#3) && (re || reField cw == 0#3)
  | .i rd ra => (rd || rdField cw == 0#3) && (ra || raField cw == 0#3)

/-- The decoding procedure of 30_encoding.md after the opcode is known: `i` is the command its fields spell. -/
def accept (cw : CommandWord) (fmt : Format) (i : Instr) : Except Illegal Instr :=
  if !reservedZero cw fmt then .error .reservedBits
  else if !unusedZero cw fmt then .error .unusedField
  else if !i.wf then .error .operandConstraint
  else .ok i

/-- The command a word stands for, or why it is illegal (30_encoding.md R55, R56, R58, R59). -/
def decode (cw : CommandWord) : Except Illegal Instr :=
  match opField cw with
  | 0x01#8 => accept cw (.r false true false false) (.setmod (raOf cw))
  | 0x02#8 => accept cw (.r false false false false) .defmod
  | 0x10#8 => accept cw (.r true false false false) (.fzero (rdOf cw))
  | 0x11#8 => accept cw (.r true false false false) (.fone (rdOf cw))
  | 0x12#8 => accept cw (.r true true true false) (.fadd (rdOf cw) (raOf cw) (rbOf cw))
  | 0x13#8 => accept cw (.r true true true false) (.fmul (rdOf cw) (raOf cw) (rbOf cw))
  | 0x14#8 => accept cw (.r true true false false) (.fneg (rdOf cw) (raOf cw))
  | 0x15#8 => accept cw (.r true true false false) (.finv (rdOf cw) (raOf cw))
  | 0x16#8 => accept cw (.r true true false false) (.fginv (rdOf cw) (raOf cw))
  | 0x17#8 => accept cw (.r true true true false) (.fexp (rdOf cw) (raOf cw) (rbOf cw))
  | 0x18#8 => accept cw (.r false true false false) (.fdeg (raOf cw))
  | 0x19#8 => accept cw (.i false true) (.fbit (raOf cw) (immField cw))
  | 0x1A#8 => accept cw (.r true true true true) (.fdiv (rdOf cw) (reOf cw) (raOf cw) (rbOf cw))
  | 0x1B#8 => accept cw (.r true true false true) (.fmdiv (rdOf cw) (reOf cw) (raOf cw))
  | 0x20#8 => accept cw (.r true false false false) (.pzero (rdOf cw))
  | 0x21#8 => accept cw (.r true false false false) (.pone (rdOf cw))
  | 0x22#8 => accept cw (.r true true true false) (.padd (rdOf cw) (raOf cw) (rbOf cw))
  | 0x23#8 => accept cw (.r true true true false) (.pmul (rdOf cw) (raOf cw) (rbOf cw))
  | 0x24#8 => accept cw (.r true true false false) (.pneg (rdOf cw) (raOf cw))
  | 0x25#8 => accept cw (.r true true true true) (.pdiv (rdOf cw) (reOf cw) (raOf cw) (rbOf cw))
  | 0x26#8 => accept cw (.r true false false false) (.pshl1 (rdOf cw))
  | 0x27#8 => accept cw (.i true false) (.pshl (rdOf cw) (immField cw))
  | 0x28#8 => accept cw (.r true false false false) (.pshr1 (rdOf cw))
  | 0x29#8 => accept cw (.r true true false false) (.paddi (rdOf cw) (raOf cw))
  | 0x2A#8 => accept cw (.r true false false false) (.pclean (rdOf cw))
  | 0x2B#8 => accept cw (.r false true false false) (.pdeg (raOf cw))
  | 0x2C#8 => accept cw (.i false true) (.pbit (raOf cw) (immField cw))
  | _ => .error .unknownOpcode

/-- The command word the host reads off an opcode-table entry's bits: a command is one 32-bit word, bit 0 its least
significant bit (30_encoding.md R50), so `nbits` is 32 and the bits above `nbits` are zero (log 18). -/
def tableWord (nbits w : Nat) : CommandWord := BitVec.ofNat 32 (w % 2 ^ nbits)

/-- The command the decoder reads from such a word, `none` where it is illegal. -/
def decodeTableWord (nbits w : Nat) : Option Instr := (decode (tableWord nbits w)).toOption

/-! ### The encoder -/

/-- A format R word from its fields (30_encoding.md R51). -/
def formatR (op : BitVec 8) (rd ra rb re : Fin 8) : CommandWord :=
  op ++ (BitVec.ofFin rd : BitVec 3) ++ (BitVec.ofFin ra : BitVec 3) ++ (BitVec.ofFin rb : BitVec 3)
    ++ (BitVec.ofFin re : BitVec 3) ++ 0#12

/-- A format I word from its fields (30_encoding.md R52). -/
def formatI (op : BitVec 8) (rd ra : Fin 8) (imm : Imm16) : CommandWord :=
  op ++ (BitVec.ofFin rd : BitVec 3) ++ (BitVec.ofFin ra : BitVec 3) ++ 0#2 ++ imm

/-- The command word of a command: the opcode and field columns of 30_encoding.md R55, unused fields zero. -/
def encode : Instr → CommandWord
  | .setmod ra => formatR 0x01#8 0 ra 0 0
  | .defmod => formatR 0x02#8 0 0 0 0
  | .fzero rd => formatR 0x10#8 rd 0 0 0
  | .fone rd => formatR 0x11#8 rd 0 0 0
  | .fadd rd ra rb => formatR 0x12#8 rd ra rb 0
  | .fmul rd ra rb => formatR 0x13#8 rd ra rb 0
  | .fneg rd ra => formatR 0x14#8 rd ra 0 0
  | .finv rd ra => formatR 0x15#8 rd ra 0 0
  | .fginv rd ra => formatR 0x16#8 rd ra 0 0
  | .fexp rd ra rb => formatR 0x17#8 rd ra rb 0
  | .fdeg ra => formatR 0x18#8 0 ra 0 0
  | .fbit ra imm => formatI 0x19#8 0 ra imm
  | .fdiv rd re ra rb => formatR 0x1A#8 rd ra rb re
  | .fmdiv rd re ra => formatR 0x1B#8 rd ra 0 re
  | .pzero rd => formatR 0x20#8 rd 0 0 0
  | .pone rd => formatR 0x21#8 rd 0 0 0
  | .padd rd ra rb => formatR 0x22#8 rd ra rb 0
  | .pmul rd ra rb => formatR 0x23#8 rd ra rb 0
  | .pneg rd ra => formatR 0x24#8 rd ra 0 0
  | .pdiv rd re ra rb => formatR 0x25#8 rd ra rb re
  | .pshl1 rd => formatR 0x26#8 rd 0 0 0
  | .pshl rd imm => formatI 0x27#8 rd 0 imm
  | .pshr1 rd => formatR 0x28#8 rd 0 0 0
  | .paddi rd ra => formatR 0x29#8 rd ra 0 0
  | .pclean rd => formatR 0x2A#8 rd 0 0 0
  | .pdeg ra => formatR 0x2B#8 0 ra 0 0
  | .pbit ra imm => formatI 0x2C#8 0 ra imm

/-- The row of spec/opcode_table.json a command belongs to: (match, mask). A word is of the row when the bits of the mask
are those of the match; the other bits are its fields. -/
def tableRow : Instr → CommandWord × CommandWord
  | .setmod _ => (0x01000000#32, 0xFFE3FFFF#32)
  | .defmod => (0x02000000#32, 0xFFFFFFFF#32)
  | .fzero _ => (0x10000000#32, 0xFF1FFFFF#32)
  | .fone _ => (0x11000000#32, 0xFF1FFFFF#32)
  | .fadd _ _ _ => (0x12000000#32, 0xFF007FFF#32)
  | .fmul _ _ _ => (0x13000000#32, 0xFF007FFF#32)
  | .fneg _ _ => (0x14000000#32, 0xFF03FFFF#32)
  | .finv _ _ => (0x15000000#32, 0xFF03FFFF#32)
  | .fginv _ _ => (0x16000000#32, 0xFF03FFFF#32)
  | .fexp _ _ _ => (0x17000000#32, 0xFF007FFF#32)
  | .fdeg _ => (0x18000000#32, 0xFFE3FFFF#32)
  | .fbit _ _ => (0x19000000#32, 0xFFE30000#32)
  | .fdiv _ _ _ _ => (0x1A000000#32, 0xFF000FFF#32)
  | .fmdiv _ _ _ => (0x1B000000#32, 0xFF038FFF#32)
  | .pzero _ => (0x20000000#32, 0xFF1FFFFF#32)
  | .pone _ => (0x21000000#32, 0xFF1FFFFF#32)
  | .padd _ _ _ => (0x22000000#32, 0xFF007FFF#32)
  | .pmul _ _ _ => (0x23000000#32, 0xFF007FFF#32)
  | .pneg _ _ => (0x24000000#32, 0xFF03FFFF#32)
  | .pdiv _ _ _ _ => (0x25000000#32, 0xFF000FFF#32)
  | .pshl1 _ => (0x26000000#32, 0xFF1FFFFF#32)
  | .pshl _ _ => (0x27000000#32, 0xFF1F0000#32)
  | .pshr1 _ => (0x28000000#32, 0xFF1FFFFF#32)
  | .paddi _ _ => (0x29000000#32, 0xFF03FFFF#32)
  | .pclean _ => (0x2A000000#32, 0xFF1FFFFF#32)
  | .pdeg _ => (0x2B000000#32, 0xFFE3FFFF#32)
  | .pbit _ _ => (0x2C000000#32, 0xFFE30000#32)

end Sys2Proof
end

