-- ==== Sys2Proof/Machine/BitView.lean ====
section
/-! DEFINITION. The bit-sequence scanner, an internal part of PMUL (spec/40_bitview.md R70 to R73). -/

namespace Sys2Proof.Machine

/-- The bits of one word from bit W-1 down to bit 0 (40_bitview.md R70). -/
def wordBitsMsbFirst {w : Nat} (x : Word w) : List Bool := (List.range w).reverse.map fun i => x.getLsbD i

/-- `bits_msb_first(s)`: the bits of the top word first, each word from its top bit down (40_bitview.md R70, R71). On the
empty sequence, where the scanner is not defined and no command starts it (R72), there are no bits (log 8). -/
def bitsMsbFirst {w : Nat} (s : Seq w) : List Bool := s.reverse.flatMap wordBitsMsbFirst

end Sys2Proof.Machine
end

