-- ==== Sys2Proof/Machine/Value.lean ====
section
/-! DEFINITION. The value-level functions of spec/00_scope.md R7: polynomials over GF(2) as natural numbers, bit `i` the
coefficient of x^i. The Euclid engine of FGINV computes with them (43_xgcd.md R162), and statements measure every other
operation against them. -/

namespace Sys2Proof.Machine

/-- `deg(n)`: -1 for 0, else the largest `i` with bit `i` of `n` set (00_scope.md R7; 90_conflicts.md C1). -/
def deg (n : Nat) : Int := if n = 0 then -1 else (n.log2 : Int)

/-- The XOR of `a << i` over the `i` below `k` with bit `i` of `b` set. -/
def clmulBelow (a b : Nat) : Nat → Nat
  | 0 => 0
  | k + 1 => clmulBelow a b k ^^^ (if b.testBit k then a <<< k else 0)

/-- `clmul(a, b)`: the carry-less product, the XOR of `a << i` over all `i` with bit `i` of `b` set (00_scope.md R7). -/
def clmul (a b : Nat) : Nat := clmulBelow a b (b.log2 + 1)

/-- The loop of `pdivmod` (00_scope.md R7) on the pair (quotient so far, rest of the dividend), at most `fuel` times. -/
def pdivmodLoop (b : Nat) : Nat → Nat → Nat → Nat × Nat
  | 0, q, a => (q, a)
  | fuel + 1, q, a =>
    if deg a < deg b then (q, a)
    else
      let s := (deg a - deg b).toNat
      pdivmodLoop b fuel (q ^^^ (1 <<< s)) (a ^^^ (b <<< s))

/-- `pdivmod(a, b)`, quotient and remainder of polynomial division for `b ≠ 0` (00_scope.md R7). The degree of the rest
falls at every step, so `deg a + 1` steps are enough. R7 does not define the function at `b = 0` and no command divides
there (log 9). -/
def pdivmod (a b : Nat) : Nat × Nat := pdivmodLoop b (a.log2 + 1) 0 a

/-- `M(W, C) = 2^W + C`, the field modulus, W+1 bits (00_scope.md R7, 10_state.md R12). -/
def modulus {w : Nat} (c : Word w) : Nat := 2 ^ w + c.toNat

/-- `fieldmul(a, b)`, the reference value of a field product: the remainder of the carry-less product by the modulus
(42_field.md R120). -/
def fieldmul (m a b : Nat) : Nat := (pdivmod (clmul a b) m).2

/-- `a` multiplied by itself `e` times modulo `m`, the empty product 1 (the value of 42_field.md R131). -/
def fieldpow (m a : Nat) : Nat → Nat
  | 0 => 1
  | e + 1 => fieldmul m (fieldpow m a e) a

/-- `m` is irreducible: no polynomial of a degree between 1 and that of `m`, both excluded, divides it
(the premise of 42_field.md R123; 92_eei_decisions.md D26). -/
def IrreducibleModulus (m : Nat) : Prop := ∀ d < m, 0 < deg d → deg d < deg m → (pdivmod m d).2 ≠ 0

/-- `val(s)`, the natural number of a word sequence: the sum of `s[k] * 2^(k*W)` (00_scope.md R7). -/
def val {w : Nat} : Seq w → Nat
  | [] => 0
  | x :: xs => x.toNat + 2 ^ w * val xs

/-- At most `fuel` words of `n`, least significant first, stopping when no bit is left. -/
def canonWords (w : Nat) : Nat → Nat → Seq w
  | 0, _ => []
  | fuel + 1, n => if n = 0 then [] else BitVec.ofNat w n :: canonWords w fuel (n >>> w)

/-- `canon(n)`, the word sequence of value `n` whose top word is not zero (00_scope.md R7). -/
def canon (w : Nat) (n : Nat) : Seq w := canonWords w (n.log2 + 1) n

end Sys2Proof.Machine
end

