-- ==== Sys2Proof/Machine/Sequence.lean ====
section
/-! DEFINITION. The sequence functions of the polynomial ring: shifter, in-place XOR, canonicalization, degree and bit
test, adder, multiplier and divider (spec/41_polyring.md R82 to R93). -/

namespace Sys2Proof.Machine

variable {w : Nat}

/-- `shift_left` with the bit that comes in from the word below: the top bit of each word moves into bit 0 of the next,
and a top bit that leaves the top word becomes a new word 1 (41_polyring.md R85; log 17). -/
def shiftLeftIn (carry : Bool) : Seq w → Seq w
  | [] => if carry then [1#w] else []
  | x :: xs => ((x <<< 1) ||| (BitVec.ofBool carry).setWidth w) :: shiftLeftIn x.msb xs

/-- `shift_left(s)`: multiply by x (41_polyring.md R85). The empty sequence stays empty (92_eei_decisions.md D18). -/
def shiftLeft (s : Seq w) : Seq w := shiftLeftIn false s

/-- The shift by `r` residual bits, `0 < r < w`, with the word below: each word takes the upper `r` bits of the word
below it, and the upper `r` bits of the top word become a new word when they are not all zero (41_polyring.md R86). -/
def shiftResidual (r : Nat) (below : Word w) : Seq w → Seq w
  | [] => if below >>> (w - r) = 0#w then [] else [below >>> (w - r)]
  | x :: xs => ((x <<< r) ||| (below >>> (w - r))) :: shiftResidual r x xs

/-- `shift_left_by_bits(s, n)`: `n div W` zero words, then `s` shifted by the `n mod W` residual bits; with no residual
bits the words move unchanged and no shift by W is made (41_polyring.md R86; 70_reset_and_hazards.md R198 (a)). -/
def shiftLeftByBits (s : Seq w) (n : Nat) : Seq w :=
  List.replicate (n / w) 0#w ++ if n % w = 0 then s else shiftResidual (n % w) 0#w s

/-- `shift_right(s)`: each word takes bit 0 of the word above as its top bit; the length stays (41_polyring.md R87). -/
def shiftRight : Seq w → Seq w
  | [] => []
  | x :: xs => ((x >>> 1) ||| if (xs.headD 0#w).getLsbD 0 then BitVec.twoPow w (w - 1) else 0#w) :: shiftRight xs

/-- `add_in_place(v, r)`: XOR `r` into `v`, growing `v` with zero words where `r` is longer (41_polyring.md R88). -/
def addInPlace : Seq w → Seq w → Seq w
  | v, [] => v
  | [], r => r
  | x :: xs, y :: ys => (x ^^^ y) :: addInPlace xs ys

/-- `clean_up(s)`: pop zero words off the top (41_polyring.md R89). -/
def cleanUp (s : Seq w) : Seq w := s.rdropWhile (· == 0#w)

/-- The degree of one word, -1 for zero (42_field.md R132). -/
def fdeg (x : Word w) : Int := deg x.toNat

/-- Bit `idx` of one word, false from the width up (42_field.md R133). -/
def fbit (x : Word w) (idx : Nat) : Bool := x.getLsbD idx

/-- `degree(s)`: -1 when every word is zero, else the index of the highest non-zero word times W plus the degree of that
word (41_polyring.md R90; 90_conflicts.md C1). -/
def degree (s : Seq w) : Int :=
  match (cleanUp s).getLast? with
  | none => -1
  | some top => ((cleanUp s).length - 1 : Int) * w + fdeg top

/-- `bit_at(s, idx)`: bit `idx mod W` of word `idx div W`, false beyond the stored words (41_polyring.md R91). -/
def bitAt (s : Seq w) (idx : Nat) : Bool := (s.getD (idx / w) 0#w).getLsbD (idx % w)

/-- Ring addition: XOR word by word, the shorter operand zero-extended, canonicalized (41_polyring.md R82). -/
def ringAdd (a b : Seq w) : Seq w := cleanUp (addInPlace a b)

/-- One step of the multiplier: shift the accumulator, then XOR in `b` if the scanned bit is 1 (41_polyring.md R83). -/
def ringMulStep (b acc : Seq w) (bit : Bool) : Seq w :=
  if bit then addInPlace (shiftLeft acc) b else shiftLeft acc

/-- Ring multiplication by shift and XOR; an empty operand gives the empty sequence at once (41_polyring.md R83). -/
def ringMul (a b : Seq w) : Seq w :=
  if a.isEmpty || b.isEmpty then [] else cleanUp ((bitsMsbFirst a).foldl (ringMulStep b) [])

/-- Set the low bit of the quotient accumulator, which becomes `[0]` first when empty (41_polyring.md R93). -/
def setLowBit : Seq w → Seq w
  | [] => [1#w]
  | x :: xs => (x ||| 1#w) :: xs

/-- The loop of the bit-serial divider over the positions `dd + n - 1` down to `dd`: (quotient, remainder)
(41_polyring.md R93). -/
def ringDivLoop (dd : Nat) : Nat → (res rem sd : Seq w) → Seq w × Seq w
  | 0, res, rem, _ => (res, rem)
  | n + 1, res, rem, sd =>
    if bitAt rem (dd + n) then ringDivLoop dd n (setLowBit (shiftLeft res)) (addInPlace rem sd) (shiftRight sd)
    else ringDivLoop dd n (shiftLeft res) rem (shiftRight sd)

/-- The divider, for a divisor that is canonical and not empty: quotient and remainder. When the dividend has the lower
degree the quotient is empty and the remainder is the dividend word for word; else the bit-serial procedure runs and both
results are canonicalized (41_polyring.md R92, R93; log 16). -/
def ringDiv (v d : Seq w) : Seq w × Seq w :=
  if degree v < degree d then ([], v)
  else
    let steps := (degree v - degree d).toNat
    let out := ringDivLoop (degree d).toNat (steps + 1) [] v (shiftLeftByBits d steps)
    (cleanUp out.1, cleanUp out.2)

end Sys2Proof.Machine
end

