-- ==== Sys2Proof/Machine/FieldArith.lean ====
section
/-! DEFINITION. The arithmetic of the word commands: field multiplier, Fermat inverter, exponentiation and the two word
dividers (spec/42_field.md R127 to R135). -/

namespace Sys2Proof.Machine

variable {w : Nat}

/-- One iteration of the field multiplier: the overflow flag is the product's top bit before the shift; the XORs are of
`a` when the scanned bit of `b` is 1 and of the reduction constant when the flag was set (42_field.md R127). -/
def fmulStep (a c : Word w) (bit : Bool) (prod : Word w) : Word w :=
  let shifted := prod <<< 1
  let added := if bit then shifted ^^^ a else shifted
  if prod.msb then added ^^^ c else added

/-- `n` iterations of the field multiplier on the product and the scan copy of `b`, whose top bit is the current one
(42_field.md R127; 90_conflicts.md C3). -/
def fmulLoop (a c : Word w) : Nat → (prod m : Word w) → Word w
  | 0, prod, _ => prod
  | n + 1, prod, m => fmulLoop a c n (fmulStep a c m.msb prod) (m <<< 1)

/-- `fmul(a, b, C)`: W iterations from the product 0 (42_field.md R127). -/
def fmul (a b c : Word w) : Word w := fmulLoop a c w 0#w b

/-- `n` rounds of the Fermat inverter, each a squaring and a multiplication by `a` (42_field.md R129). -/
def finvLoop (a c : Word w) : Nat → Word w → Word w
  | 0, r => r
  | n + 1, r => finvLoop a c n (fmul (fmul r r c) a c)

/-- `finv(a, C)` for a non-zero `a`: W-1 rounds from 1 and a final squaring (42_field.md R129; 90_conflicts.md C4). -/
def finv (a c : Word w) : Word w :=
  let r := finvLoop a c (w - 1) 1#w
  fmul r r c

/-- Square-and-multiply over the exponent bits `n - 1` down to 0 (42_field.md R131). -/
def fexpLoop (a e c : Word w) : Nat → Word w → Word w
  | 0, acc => acc
  | n + 1, acc => fexpLoop a e c n (if e.getLsbD n then fmul (fmul acc acc c) a c else fmul acc acc c)

/-- `fexp(a, e, C)`: the exponent is consumed from its top bit, the accumulator starts at 1 (42_field.md R131). -/
def fexp (a e c : Word w) : Word w := fexpLoop a e c w 1#w

/-- The loop of the word divider over the positions `db + n - 1` down to `db`: (quotient, remainder)
(42_field.md R134). -/
def fdivLoop (db : Nat) : Nat → (q r sd : Word w) → Word w × Word w
  | 0, q, r, _ => (q, r)
  | n + 1, q, r, sd =>
    if r.getLsbD (db + n) then fdivLoop db n ((q <<< 1) ||| 1#w) (r ^^^ sd) (sd >>> 1)
    else fdivLoop db n (q <<< 1) r (sd >>> 1)

/-- `fdiv(a, b)` for a non-zero `b`: quotient and remainder of the words as polynomials (42_field.md R134). -/
def fdiv (a b : Word w) : Word w × Word w :=
  if fdeg a < fdeg b then (0#w, a)
  else
    let steps := (fdeg a - fdeg b).toNat
    fdivLoop (fdeg b).toNat (steps + 1) 0#w a (b <<< steps)

/-- `fmdiv(d, C)` for a non-zero `d`: the modulus less the divisor aligned under its top bit is one word, which `fdiv`
divides; the quotient's leading bit is put back unless it does not fit a word (42_field.md R135). -/
def fmdiv (d c : Word w) : Word w × Word w :=
  let s := w - (fdeg d).toNat
  let low := fdiv (c ^^^ (d <<< s)) d
  ((if s < w then 1#w <<< s else 0#w) ^^^ low.1, low.2)

end Sys2Proof.Machine
end

