-- ==== Sys2Proof/Config.lean ====
section
/-! DEFINITION. What an instance of GF2CORE fixes (spec/00_scope.md section 4), and the values the spec leaves open. -/

namespace Sys2Proof.Config

/-- The five legal word widths (00_scope.md R5). Other widths are outside the spec (93_implementation_defined.md U10). -/
inductive Width where
  | w8
  | w16
  | w32
  | w64
  | w128
deriving DecidableEq, Repr

/-- The number W of bits in a word (00_scope.md R5). -/
def Width.bits : Width → Nat
  | .w8 => 8
  | .w16 => 16
  | .w32 => 32
  | .w64 => 64
  | .w128 => 128

/-- `DEFAULT_C(W)`, the built-in mod-subtractor of each width (10_state.md R12). -/
def defaultC : (width : Width) → Word width.bits
  | .w8 => 0x1B#8
  | .w16 => 0x2B#16
  | .w32 => 0x8D#32
  | .w64 => 0x1B#64
  | .w128 => 0x87#128

/-- The width of the one instance that `State.reset` is (DESIGN CHOICE, log 1): 8, the width of the spec's examples. -/
def resetWidth : Width := .w8

/-- The capacity LMAX of that instance, `none` for unbounded (DESIGN CHOICE, log 1): unbounded, the spec's default. -/
def resetCapacity : Option Nat := none

/-- FREE VALUE (DESIGN CHOICE, log 4): what RES holds after PDEG of a polynomial whose degree does not fit RES.
It may depend on the width and on the polynomial value, by 10_state.md R17 and R21 on nothing else. -/
opaque degreeBeyondRes (w : Nat) (value : Nat) : BitVec 32

/-- FREE VALUE (DESIGN CHOICE, log 5): what the port returns for the length of a buffer of 2^32 words or more. -/
opaque lengthBeyondPort (length : Nat) : BitVec 32

end Sys2Proof.Config
end

