-- ==== Sys2Proof/Machine/Flags.lean ====
section
/-! DEFINITION. What commands put into STATUS and RES (spec/10_state.md R13, R14; spec/60_exceptions.md R170). GF2CORE
has no condition codes: the arithmetic has no carry, sign or overflow (00_scope.md R8). -/

namespace Sys2Proof.Machine

/-- The failure kinds (60_exceptions.md R170). -/
inductive Failure where
  /-- a divisor of value zero in PDIV, FDIV or FMDIV, or FINV of zero -/
  | divisionByZero
  /-- FGINV of zero -/
  | inversionOfZero
  /-- the word is not a legal form of one of the 27 commands -/
  | illegalCommand
  /-- PMUL, PSHL1 or PSHL would write more than LMAX words -/
  | capacityExceeded
deriving DecidableEq, Repr

/-- The outcome code OK (60_exceptions.md R170). -/
def codeOk : BitVec 8 := 0#8

/-- The outcome code of a failure kind (60_exceptions.md R170). -/
def failureCode : Failure → BitVec 8
  | .divisionByZero => 1#8
  | .inversionOfZero => 2#8
  | .illegalCommand => 3#8
  | .capacityExceeded => 4#8

/-- RES for the degree `d` of a polynomial of value `value`: `d` in two's complement (10_state.md R13). A degree of 2^31
or more does not fit; what RES holds then is not stated, a free value (log 4). -/
def resOfDegree (w : Nat) (value : Nat) (d : Int) : BitVec 32 :=
  if d < 2 ^ 31 then BitVec.ofInt 32 d else Config.degreeBeyondRes w value

/-- RES for a bit test, 0 or 1 (10_state.md R13). -/
def resOfBit (b : Bool) : BitVec 32 := if b then 1#32 else 0#32

end Sys2Proof.Machine
end

