-- ==== Sys2Proof/Machine/State.lean ====
section
/-! DEFINITION. The state of GF2CORE (spec/10_state.md) and the host transactions waiting for it (spec/20_memory.md,
spec/70_reset_and_hazards.md). -/

namespace Sys2Proof.Machine

open Sys2Proof.Config (Width)

/-- A host transaction (70_reset_and_hazards.md R200, R201). -/
inductive Transaction where
  /-- `Issue(cw)`: a command word on the command port (20_memory.md R36) -/
  | issue (cw : CommandWord)
  /-- `PortRead(sel, k)` (20_memory.md R33) -/
  | portRead (sel : BitVec 8) (k : Nat)
  /-- `PortWrite(sel, k, v)` (20_memory.md R33 to R35) -/
  | portWrite (sel : BitVec 8) (k : Nat) (v : PortData)
  /-- reset asserted and released between commands (70_reset_and_hazards.md R190, log 10) -/
  | reset
deriving DecidableEq, Repr

/-- What a transaction hands back to the host (70_reset_and_hazards.md R200, R201). -/
inductive Response where
  /-- the outcome code that `Issue` returns (20_memory.md R36) -/
  | outcome (code : BitVec 8)
  /-- the value that `PortRead` returns (20_memory.md R33) -/
  | value (v : PortData)
deriving DecidableEq, Repr

/-- The registers of an instance of word width `w` (10_state.md section 1): everything the block itself holds. -/
structure Regs (w : Nat) where
  /-- the word registers f0 to f7 (10_state.md R10) -/
  f : Vector (Word w) 8
  /-- the polynomial buffers p0 to p7 (10_state.md R15) -/
  p : Vector (Seq w) 8
  /-- the mod-subtractor C of the modulus 2^w + C (10_state.md R12) -/
  modsub : Word w
  /-- the last degree or bit-test result, two's complement (10_state.md R13) -/
  res : BitVec 32
  /-- the outcome code of the last command (10_state.md R14) -/
  status : BitVec 8
deriving DecidableEq, Repr

/-- The machine: an instance of GF2CORE, its registers, and the host's side of the ports. -/
structure State where
  /-- the word width W of the instance; no step changes it (00_scope.md R5, log 1) -/
  width : Width
  /-- the capacity LMAX of a buffer in words, `none` for unbounded; no step changes it (10_state.md R19, log 1) -/
  lmax : Option Nat
  /-- the registers (10_state.md) -/
  regs : Regs width.bits
  /-- the MODEL's own: the host's transactions still to come, next first (70_reset_and_hazards.md R200, log 2) -/
  pending : List Transaction
  /-- the MODEL's own: what the host has been handed back, oldest first (70_reset_and_hazards.md R200, log 2) -/
  returned : List Response
deriving DecidableEq, Repr

/-- Why the machine stops with a fault: never. A failing command is a next state whose STATUS holds the code
(60_exceptions.md R172, R185), and the block cannot hang or be stuck (70_reset_and_hazards.md R196), so no step raises a
fault and there is no constructor. That is safe and unsafe of nothing: there is no fault to compare (log 23). -/
inductive Fault where
deriving DecidableEq, Repr

/-- Why an instruction is refused: only for want of a meaning, and no arm of `exec` is left so. Raised by no step; it
would be safe, since the machine would stop where the hardware goes on. -/
inductive Refusal where
  /-- the command named has no meaning in the model yet -/
  | notModelled (mnemonic : String)
deriving DecidableEq, Repr

/-- The registers after reset (10_state.md R24). -/
def resetRegs (width : Width) : Regs width.bits where
  f := Vector.replicate 8 0
  p := Vector.replicate 8 []
  modsub := Config.defaultC width
  res := 0
  status := 0

/-- The instance of width `width` and capacity `lmax` right after reset, with no transaction pending. -/
def State.resetOf (width : Width) (lmax : Option Nat) : State where
  width := width
  lmax := lmax
  regs := resetRegs width
  pending := []
  returned := []

/-- The machine right after reset: `State.resetOf` at the one instance named in log 1. -/
def State.reset : State := State.resetOf Config.resetWidth Config.resetCapacity

end Sys2Proof.Machine
end

