-- ==== Sys2Proof/Machine/Operands.lean ====
section
/-! DEFINITION. The operand forms of a command: a word register, a polynomial buffer, the immediate
(spec/30_encoding.md R53, R54). -/

namespace Sys2Proof.Machine

variable {w : Nat}

/-- `f[i]`, read (00_scope.md section 5). -/
def Regs.readF (r : Regs w) (i : FReg) : Word w := r.f[i]

/-- `p[i]`, read (00_scope.md section 5). -/
def Regs.readP (r : Regs w) (i : PReg) : Seq w := r.p[i]

/-- The immediate as the number it is, 0 to 65535, never sign-extended or scaled (30_encoding.md R54). -/
def immValue (imm : Imm16) : Nat := imm.toNat

end Sys2Proof.Machine
end

