-- ==== Sys2Proof/Machine/Ops.lean ====
section
/-! DEFINITION. How a command ends: the writes of its destinations, and the one operation that ends a command with a
failure kind (spec/60_exceptions.md R171, R172, R175). -/

namespace Sys2Proof.Machine

variable {w : Nat}

/-- `f[i] <- v` (00_scope.md section 5). -/
def Regs.writeF (r : Regs w) (i : FReg) (v : Word w) : Regs w := { r with f := r.f.set i v }

/-- `p[i] <- s`, the whole buffer (00_scope.md section 5). -/
def Regs.writeP (r : Regs w) (i : PReg) (s : Seq w) : Regs w := { r with p := r.p.set i s }

/-- `MODSUB <- c` (10_state.md R12). -/
def Regs.writeModsub (r : Regs w) (c : Word w) : Regs w := { r with modsub := c }

/-- `RES <- v` (10_state.md R13). -/
def Regs.writeRes (r : Regs w) (v : BitVec 32) : Regs w := { r with res := v }

/-- `STATUS <- code` (10_state.md R14). -/
def Regs.writeStatus (r : Regs w) (code : BitVec 8) : Regs w := { r with status := code }

/-- A command that completes: `r` holds its results, and STATUS becomes OK after they are written
(60_exceptions.md R171). -/
def State.complete (s : State) (r : Regs s.width.bits) : State := { s with regs := r.writeStatus codeOk }

/-- `raise <Kind>`, the one way a command fails: STATUS gets the code and nothing else changes; there is no handler,
nothing is saved and there is nothing to return from (60_exceptions.md R172, R180). -/
def State.raise (s : State) (k : Failure) : State := { s with regs := s.regs.writeStatus (failureCode k) }

/-- A sequence of `n` words fits a buffer: `n` is at most LMAX (10_state.md R19). -/
def State.fits (s : State) (n : Nat) : Bool :=
  match s.lmax with
  | none => true
  | some l => decide (n ≤ l)

/-- Write the final result of PMUL, PSHL1 or PSHL to its buffer, or fail with CapacityExceeded when it has more than LMAX
words; no other command makes the check (60_exceptions.md R175). -/
def State.store (s : State) (i : PReg) (q : Seq s.width.bits) : State :=
  if s.fits q.length then s.complete (s.regs.writeP i q) else s.raise .capacityExceeded

/-- Hand a value back to the host (70_reset_and_hazards.md R200). -/
def State.respond (s : State) (r : Response) : State := { s with returned := s.returned ++ [r] }

end Sys2Proof.Machine
end

