-- ==== Sys2Proof/Machine/Xgcd.lean ====
section
/-! DEFINITION. The extended-Euclid engine of FGINV (spec/43_xgcd.md R160 to R168). -/

namespace Sys2Proof.Machine

/-- The loop of the engine on the remainders and the coefficients of `a`: divide, stop when the remainder is zero, else
update both pairs (43_xgcd.md R162). `fuel` bounds the divisions. -/
def xgcdLoop : Nat → (rPrev rCur sPrev sCur : Nat) → Nat × Nat
  | 0, _, rCur, _, sCur => (sCur, rCur)
  | fuel + 1, rPrev, rCur, sPrev, sCur =>
    let qr := pdivmod rPrev rCur
    if qr.2 = 0 then (sCur, rCur) else xgcdLoop fuel rCur qr.2 sCur (sPrev ^^^ clmul qr.1 sCur)

/-- `xgcd_coeff(a, C)` for a non-zero `a`: the coefficient of `a` and the greatest common divisor of `a` and the modulus
(43_xgcd.md R162). W+1 divisions are never exceeded (R167; log 20). -/
def xgcdCoeff {w : Nat} (a c : Word w) : Nat × Nat := xgcdLoop (w + 1) (modulus c) a.toNat 0 1

/-- The word FGINV writes: the coefficient, which has degree below W (43_xgcd.md R164). -/
def fginv {w : Nat} (a c : Word w) : Word w := BitVec.ofNat w (xgcdCoeff a c).1

end Sys2Proof.Machine
end

