-- ==== Sys2Proof/Machine/Field.lean ====
section
/-! DEFINITION. The field commands on word registers (spec/42_field.md R124 to R135). Every source is read from the
state before the command (30_encoding.md R57). -/

namespace Sys2Proof.Machine

/-- FZERO fd: `f[rd] <- 0` (42_field.md R124). -/
def execFzero (rd : FReg) (s : State) : Host.Outcome State Fault Refusal :=
  .next (s.complete (s.regs.writeF rd 0))

/-- FONE fd: `f[rd] <- 1` (42_field.md R125). -/
def execFone (rd : FReg) (s : State) : Host.Outcome State Fault Refusal :=
  .next (s.complete (s.regs.writeF rd 1))

/-- FADD fd, fa, fb: `f[rd] <- f[ra] xor f[rb]`; MODSUB is not read (42_field.md R126). -/
def execFadd (rd ra rb : FReg) (s : State) : Host.Outcome State Fault Refusal :=
  .next (s.complete (s.regs.writeF rd (s.regs.readF ra ^^^ s.regs.readF rb)))

/-- FMUL fd, fa, fb: the field product under MODSUB (42_field.md R127). -/
def execFmul (rd ra rb : FReg) (s : State) : Host.Outcome State Fault Refusal :=
  .next (s.complete (s.regs.writeF rd (fmul (s.regs.readF ra) (s.regs.readF rb) s.regs.modsub)))

/-- FNEG fd, fa: negation is the identity (42_field.md R128). -/
def execFneg (rd ra : FReg) (s : State) : Host.Outcome State Fault Refusal :=
  .next (s.complete (s.regs.writeF rd (s.regs.readF ra)))

/-- FINV fd, fa: the inverse by the Fermat path; zero is DivisionByZero (42_field.md R129). -/
def execFinv (rd ra : FReg) (s : State) : Host.Outcome State Fault Refusal :=
  if s.regs.readF ra = 0 then .next (s.raise .divisionByZero)
  else .next (s.complete (s.regs.writeF rd (finv (s.regs.readF ra) s.regs.modsub)))

/-- FGINV fd, fa: the inverse by the extended-Euclid path; zero is InversionOfZero (42_field.md R130). -/
def execFginv (rd ra : FReg) (s : State) : Host.Outcome State Fault Refusal :=
  if s.regs.readF ra = 0 then .next (s.raise .inversionOfZero)
  else .next (s.complete (s.regs.writeF rd (fginv (s.regs.readF ra) s.regs.modsub)))

/-- FEXP fd, fa, fb: `f[ra]` to the W-bit exponent `f[rb]` (42_field.md R131). -/
def execFexp (rd ra rb : FReg) (s : State) : Host.Outcome State Fault Refusal :=
  .next (s.complete (s.regs.writeF rd (fexp (s.regs.readF ra) (s.regs.readF rb) s.regs.modsub)))

/-- FDEG fa: RES gets the degree of the word, -1 for zero (42_field.md R132). -/
def execFdeg (ra : FReg) (s : State) : Host.Outcome State Fault Refusal :=
  .next (s.complete (s.regs.writeRes (resOfDegree s.width.bits (s.regs.readF ra).toNat (fdeg (s.regs.readF ra)))))

/-- FBIT fa, imm16: RES gets the bit of the word, 0 from W up (42_field.md R133). -/
def execFbit (ra : FReg) (imm : Imm16) (s : State) : Host.Outcome State Fault Refusal :=
  .next (s.complete (s.regs.writeRes (resOfBit (fbit (s.regs.readF ra) (immValue imm)))))

/-- FDIV fq, fr, fa, fb: word quotient and remainder; a zero divisor is DivisionByZero (42_field.md R134). Two equal
destinations are IllegalCommand before anything is read (30_encoding.md R58, log 7). -/
def execFdiv (rd re ra rb : FReg) (s : State) : Host.Outcome State Fault Refusal :=
  if rd = re then .next (s.raise .illegalCommand)
  else if s.regs.readF rb = 0 then .next (s.raise .divisionByZero)
  else
    let qr := fdiv (s.regs.readF ra) (s.regs.readF rb)
    .next (s.complete ((s.regs.writeF rd qr.1).writeF re qr.2))

/-- FMDIV fq, fr, fa: quotient and remainder of the modulus by the word; a zero divisor is DivisionByZero
(42_field.md R135). Two equal destinations are IllegalCommand (30_encoding.md R58, log 7). -/
def execFmdiv (rd re ra : FReg) (s : State) : Host.Outcome State Fault Refusal :=
  if rd = re then .next (s.raise .illegalCommand)
  else if s.regs.readF ra = 0 then .next (s.raise .divisionByZero)
  else
    let qr := fmdiv (s.regs.readF ra) s.regs.modsub
    .next (s.complete ((s.regs.writeF rd qr.1).writeF re qr.2))

end Sys2Proof.Machine
end

