-- ==== Sys2Proof/Machine/Modulus.lean ====
section
/-! DEFINITION. The configuration commands SETMOD and DEFMOD (spec/42_field.md R121, R122). -/

namespace Sys2Proof.Machine

/-- SETMOD fa: `MODSUB <- f[ra]`, any value (42_field.md R121, R123). -/
def execSetmod (ra : FReg) (s : State) : Host.Outcome State Fault Refusal :=
  .next (s.complete (s.regs.writeModsub (s.regs.readF ra)))

/-- DEFMOD: `MODSUB <- DEFAULT_C(W)` (42_field.md R122). -/
def execDefmod (s : State) : Host.Outcome State Fault Refusal :=
  .next (s.complete (s.regs.writeModsub (Config.defaultC s.width)))

end Sys2Proof.Machine
end

