-- ==== Sys2Proof/Machine/Ring.lean ====
section
/-! DEFINITION. The polynomial-ring commands on buffers (spec/41_polyring.md R80 to R92). Every source is read from the
state before the command (30_encoding.md R57). -/

namespace Sys2Proof.Machine

/-- PZERO pd: `p[rd] <- []` (41_polyring.md R80; 90_conflicts.md C2). -/
def execPzero (rd : PReg) (s : State) : Host.Outcome State Fault Refusal :=
  .next (s.complete (s.regs.writeP rd []))

/-- PONE pd: `p[rd] <- [1]` (41_polyring.md R81). -/
def execPone (rd : PReg) (s : State) : Host.Outcome State Fault Refusal :=
  .next (s.complete (s.regs.writeP rd [1#s.width.bits]))

/-- PADD pd, pa, pb: the canonical sum (41_polyring.md R82). -/
def execPadd (rd ra rb : PReg) (s : State) : Host.Outcome State Fault Refusal :=
  .next (s.complete (s.regs.writeP rd (ringAdd (s.regs.readP ra) (s.regs.readP rb))))

/-- PMUL pd, pa, pb: the canonical product, or CapacityExceeded (41_polyring.md R83). -/
def execPmul (rd ra rb : PReg) (s : State) : Host.Outcome State Fault Refusal :=
  .next (s.store rd (ringMul (s.regs.readP ra) (s.regs.readP rb)))

/-- PNEG pd, pa: negation is the identity, so the sequence is copied word for word (41_polyring.md R84). -/
def execPneg (rd ra : PReg) (s : State) : Host.Outcome State Fault Refusal :=
  .next (s.complete (s.regs.writeP rd (s.regs.readP ra)))

/-- PDIV pq, pr, pa, pb: quotient and remainder by the canonicalized divisor; a divisor of value zero is DivisionByZero
(41_polyring.md R92). Two equal destinations are IllegalCommand (30_encoding.md R58, log 7). -/
def execPdiv (rd re ra rb : PReg) (s : State) : Host.Outcome State Fault Refusal :=
  if rd = re then .next (s.raise .illegalCommand)
  else if (cleanUp (s.regs.readP rb)).isEmpty then .next (s.raise .divisionByZero)
  else
    let qr := ringDiv (s.regs.readP ra) (cleanUp (s.regs.readP rb))
    .next (s.complete ((s.regs.writeP rd qr.1).writeP re qr.2))

/-- PSHL1 pd: shift left by one in place, or CapacityExceeded (41_polyring.md R85). -/
def execPshl1 (rd : PReg) (s : State) : Host.Outcome State Fault Refusal :=
  .next (s.store rd (shiftLeft (s.regs.readP rd)))

/-- PSHL pd, imm16: shift left by imm16 bits in place, or CapacityExceeded (41_polyring.md R86). -/
def execPshl (rd : PReg) (imm : Imm16) (s : State) : Host.Outcome State Fault Refusal :=
  .next (s.store rd (shiftLeftByBits (s.regs.readP rd) (immValue imm)))

/-- PSHR1 pd: shift right by one in place, the length kept (41_polyring.md R87). -/
def execPshr1 (rd : PReg) (s : State) : Host.Outcome State Fault Refusal :=
  .next (s.complete (s.regs.writeP rd (shiftRight (s.regs.readP rd))))

/-- PADDI pd, pa: XOR into the buffer in place (41_polyring.md R88). One buffer named twice is IllegalCommand
(30_encoding.md R59, log 7). -/
def execPaddi (rd ra : PReg) (s : State) : Host.Outcome State Fault Refusal :=
  if rd = ra then .next (s.raise .illegalCommand)
  else .next (s.complete (s.regs.writeP rd (addInPlace (s.regs.readP rd) (s.regs.readP ra))))

/-- PCLEAN pd: strip zero top words in place (41_polyring.md R89). -/
def execPclean (rd : PReg) (s : State) : Host.Outcome State Fault Refusal :=
  .next (s.complete (s.regs.writeP rd (cleanUp (s.regs.readP rd))))

/-- PDEG pa: RES gets the degree, -1 for zero (41_polyring.md R90). -/
def execPdeg (ra : PReg) (s : State) : Host.Outcome State Fault Refusal :=
  .next (s.complete (s.regs.writeRes (resOfDegree s.width.bits (val (s.regs.readP ra)) (degree (s.regs.readP ra)))))

/-- PBIT pa, imm16: RES gets the bit, 0 beyond the stored words (41_polyring.md R91). -/
def execPbit (ra : PReg) (imm : Imm16) (s : State) : Host.Outcome State Fault Refusal :=
  .next (s.complete (s.regs.writeRes (resOfBit (bitAt (s.regs.readP ra) (immValue imm)))))

end Sys2Proof.Machine
end

