-- ==== Sys2Proof/Machine/Dispatch.lean ====
section
/-! DEFINITION. One arm per command, each one call of its meaning (spec/30_encoding.md R55). -/

namespace Sys2Proof.Machine

def exec (i : Instr) (s : State) : Host.Outcome State Fault Refusal :=
  match i with
  | .setmod ra => Sys2Proof.Machine.execSetmod ra s
  | .defmod => Sys2Proof.Machine.execDefmod s
  | .fzero rd => Sys2Proof.Machine.execFzero rd s
  | .fone rd => Sys2Proof.Machine.execFone rd s
  | .fadd rd ra rb => Sys2Proof.Machine.execFadd rd ra rb s
  | .fmul rd ra rb => Sys2Proof.Machine.execFmul rd ra rb s
  | .fneg rd ra => Sys2Proof.Machine.execFneg rd ra s
  | .finv rd ra => Sys2Proof.Machine.execFinv rd ra s
  | .fginv rd ra => Sys2Proof.Machine.execFginv rd ra s
  | .fexp rd ra rb => Sys2Proof.Machine.execFexp rd ra rb s
  | .fdeg ra => Sys2Proof.Machine.execFdeg ra s
  | .fbit ra imm => Sys2Proof.Machine.execFbit ra imm s
  | .fdiv rd re ra rb => Sys2Proof.Machine.execFdiv rd re ra rb s
  | .fmdiv rd re ra => Sys2Proof.Machine.execFmdiv rd re ra s
  | .pzero rd => Sys2Proof.Machine.execPzero rd s
  | .pone rd => Sys2Proof.Machine.execPone rd s
  | .padd rd ra rb => Sys2Proof.Machine.execPadd rd ra rb s
  | .pmul rd ra rb => Sys2Proof.Machine.execPmul rd ra rb s
  | .pneg rd ra => Sys2Proof.Machine.execPneg rd ra s
  | .pdiv rd re ra rb => Sys2Proof.Machine.execPdiv rd re ra rb s
  | .pshl1 rd => Sys2Proof.Machine.execPshl1 rd s
  | .pshl rd imm => Sys2Proof.Machine.execPshl rd imm s
  | .pshr1 rd => Sys2Proof.Machine.execPshr1 rd s
  | .paddi rd ra => Sys2Proof.Machine.execPaddi rd ra s
  | .pclean rd => Sys2Proof.Machine.execPclean rd s
  | .pdeg ra => Sys2Proof.Machine.execPdeg ra s
  | .pbit ra imm => Sys2Proof.Machine.execPbit ra imm s

end Sys2Proof.Machine
end

