-- ==== Sys2Proof/Machine/Port.lean ====
section
/-! DEFINITION. The register port (spec/20_memory.md R31 to R35). -/

namespace Sys2Proof.Machine

/-- What a selector of the register port names (20_memory.md R32). -/
inductive PortTarget where
  /-- 0x00 + i: the word register `f[i]` -/
  | word (i : FReg)
  /-- 0x08 -/
  | modsub
  /-- 0x09 -/
  | status
  /-- 0x0A -/
  | res
  /-- 0x10 + i: the length of `p[i]` -/
  | length (i : PReg)
  /-- 0x20 + i: a word of `p[i]` -/
  | bufferWord (i : PReg)
  /-- every other selector: reads 0, ignores writes -/
  | reserved
deriving DecidableEq, Repr

/-- The selector map (20_memory.md R32). -/
def portTarget (sel : BitVec 8) : PortTarget :=
  let i : Fin 8 := (sel.extractLsb' 0 3).toFin
  if sel.extractLsb' 3 5 = 0#5 then .word i
  else if sel = 0x08#8 then .modsub
  else if sel = 0x09#8 then .status
  else if sel = 0x0A#8 then .res
  else if sel.extractLsb' 3 5 = 2#5 then .length i
  else if sel.extractLsb' 3 5 = 4#5 then .bufferWord i
  else .reserved

/-- The length of a buffer as the port returns it, a 32-bit unsigned number (20_memory.md R32). A length that does not
fit is read as a free value (log 5). -/
def portLength (n : Nat) : BitVec 32 := if n < 2 ^ 32 then BitVec.ofNat 32 n else Config.lengthBeyondPort n

/-- `PortRead(sel, k)`: the value of the register named, zero-extended to the data lines; a word at or beyond the length
and a reserved selector read 0 (20_memory.md R32, R33, R35). -/
def State.portRead (s : State) (sel : BitVec 8) (k : Nat) : PortData :=
  match portTarget sel with
  | .word i => (s.regs.readF i).setWidth 128
  | .modsub => s.regs.modsub.setWidth 128
  | .status => s.regs.status.setWidth 128
  | .res => s.regs.res.setWidth 128
  | .length i => (portLength (s.regs.readP i).length).setWidth 128
  | .bufferWord i => ((s.regs.readP i).getD k 0).setWidth 128
  | .reserved => 0

/-- A buffer with its length set to `n`: words from `n` up are dropped, or zero words are added at the top
(20_memory.md R34). -/
def resize {w : Nat} (q : Seq w) (n : Nat) : Seq w := q.take n ++ List.replicate (n - q.length) 0#w

/-- `PortWrite(0x10 + i, -, n)`: set the length, ignored above LMAX (20_memory.md R34). -/
def State.writeLength (s : State) (i : PReg) (n : Nat) : State :=
  if s.fits n then { s with regs := s.regs.writeP i (resize (s.regs.readP i) n) } else s

/-- `PortWrite(sel, k, v)`: a write to a word register, a buffer length or a stored buffer word; a word index at or
beyond the length, MODSUB, STATUS, RES and reserved selectors are ignored (20_memory.md R32 to R35). The register takes as
many low bits of the data lines as it is wide (log 6). -/
def State.portWrite (s : State) (sel : BitVec 8) (k : Nat) (v : PortData) : State :=
  match portTarget sel with
  | .word i => { s with regs := s.regs.writeF i (v.setWidth s.width.bits) }
  | .length i => s.writeLength i (v.setWidth 32).toNat
  | .bufferWord i => { s with regs := s.regs.writeP i ((s.regs.readP i).set k (v.setWidth s.width.bits)) }
  | .modsub => s
  | .status => s
  | .res => s
  | .reserved => s

/-- Reset: every register gets its reset value; the instance stays what it is (10_state.md R24, 70_reset_and_hazards.md
R190; log 10). -/
def State.applyReset (s : State) : State := { s with regs := resetRegs s.width }

/-- `HostLoad(p[i], q)`: the transactions that load a sequence, the length and then its words (20_memory.md R35). -/
def hostLoad {w : Nat} (i : PReg) (q : Seq w) : List Transaction :=
  .portWrite (0x10#8 + BitVec.ofNat 8 i) 0 (BitVec.ofNat 128 q.length) ::
    q.mapIdx fun k x => .portWrite (0x20#8 + BitVec.ofNat 8 i) k (x.setWidth 128)

end Sys2Proof.Machine
end

