-- ==== Sys2Proof/Machine/Issue.lean ====
section
/-! DEFINITION. What each host transaction does (spec/20_memory.md R33 to R36, spec/70_reset_and_hazards.md R201). -/

namespace Sys2Proof.Machine

/-- `Issue(cw)`: the command runs to its end, or the word is IllegalCommand before any register is read; the host gets
back what was written to STATUS (20_memory.md R36, 60_exceptions.md R174). -/
def State.issue (s : State) (cw : CommandWord) : Host.Outcome State Fault Refusal :=
  match decode cw with
  | .error _ => .next ((s.raise .illegalCommand).respond (.outcome (failureCode .illegalCommand)))
  | .ok i =>
    match exec i s with
    | .next t => .next (t.respond (.outcome t.regs.status))
    | .fault r => .fault r
    | .refused r => .refused r

/-- One host transaction, from beginning to end (20_memory.md R39, R41). -/
def State.perform (s : State) : Transaction → Host.Outcome State Fault Refusal
  | .issue cw => s.issue cw
  | .portRead sel k => .next (s.respond (.value (s.portRead sel k)))
  | .portWrite sel k v => .next (s.portWrite sel k v)
  | .reset => .next s.applyReset

/-- The next transaction of the host, if one is pending, and the state without it (log 2). -/
def State.nextTransaction (s : State) : Option (Transaction × State) :=
  match s.pending with
  | [] => none
  | t :: rest => some (t, { s with pending := rest })

/-- Put a transaction before all that are pending (log 2). -/
def State.offerFirst (s : State) (t : Transaction) : State := { s with pending := t :: s.pending }

end Sys2Proof.Machine
end

