-- ==== Sys2Proof/Machine/Step.lean ====
section
/-! DEFINITION. The step: perform the host's next transaction (spec/00_scope.md R9, spec/20_memory.md R41). -/

namespace Sys2Proof.Machine

/-- One step: the next pending transaction, whole; with none pending the block is idle and keeps its state
(00_scope.md R9, 60_exceptions.md R183, 70_reset_and_hazards.md R191; log 3). -/
def step (s : State) : Host.Outcome State Fault Refusal :=
  match s.nextTransaction with
  | none => .next s
  | some (t, s') => s'.perform t

/-- The command word whose bits are `w` made the host's next transaction (log 2, log 18). -/
def State.withFetchWord (s : State) (nbits w : Nat) : State := s.offerFirst (.issue (tableWord nbits w))

end Sys2Proof.Machine
end

