-- ==== Sys2Proof/Safety.lean ====
section
/-! DEFINITION. The terms statements are made in: the invariant of the machine, what each command may read and write by
the tables of the spec, and which words the spec calls illegal. -/

namespace Sys2Proof.Machine

/-! ### The invariant -/

/-- The capacity is one the spec allows: unbounded, or `1 <= LMAX` and `LMAX * W <= 2^31 - 1` (00_scope.md section 4). -/
def State.instanceLegal (s : State) : Bool :=
  match s.lmax with
  | none => true
  | some n => decide (1 ≤ n ∧ n * s.width.bits ≤ 2 ^ 31 - 1)

/-- No buffer holds more than LMAX words (10_state.md R15, R19). -/
def State.withinCapacity (s : State) : Bool := decide (∀ i : PReg, s.fits (s.regs.readP i).length = true)

/-- STATUS holds one of the codes 0 to 4 (10_state.md R14). -/
def State.statusLegal (s : State) : Bool := decide (s.regs.status.toNat ≤ 4)

/-- RES holds -1 to LMAX*W-1 (10_state.md section 5, the register table); nothing is asked with LMAX unbounded. -/
def State.resLegal (s : State) : Bool :=
  match s.lmax with
  | none => true
  | some n => decide (-1 ≤ s.regs.res.toInt ∧ s.regs.res.toInt ≤ (n : Int) * s.width.bits - 1)

/-- The machine's invariant: a legal instance, every buffer within its capacity, STATUS and RES in their ranges. -/
def State.inv (s : State) : Bool := s.instanceLegal && s.withinCapacity && s.statusLegal && s.resLegal

/-! ### What a command reads and writes -/

/-- What a command reads and writes and which outcomes it can have, by the columns of 30_encoding.md R55, the rules of
41_polyring.md and 42_field.md, and the table of 60_exceptions.md R170. -/
structure Effects where
  /-- a polynomial-ring command, opcode 0x20 to 0x2C; the others work on words (30_encoding.md R55) -/
  ring : Bool := false
  /-- word registers written when it ends OK -/
  fDests : List FReg := []
  /-- buffers written when it ends OK -/
  pDests : List PReg := []
  /-- word registers read -/
  fSources : List FReg := []
  /-- buffers read; an in-place command reads the buffer it writes (10_state.md R18) -/
  pSources : List PReg := []
  /-- reads MODSUB (10_state.md R12) -/
  readsModsub : Bool := false
  /-- writes MODSUB (10_state.md R12) -/
  writesModsub : Bool := false
  /-- writes RES (10_state.md R13) -/
  writesRes : Bool := false
  /-- the outcome codes of a well-formed form (60_exceptions.md R170) -/
  outcomes : List (BitVec 8) := [0]

/-- The table of effects, one row per command. -/
def effects : Instr → Effects
  | .setmod ra => { fSources := [ra], writesModsub := true }
  | .defmod => { writesModsub := true }
  | .fzero rd => { fDests := [rd] }
  | .fone rd => { fDests := [rd] }
  | .fadd rd ra rb => { fDests := [rd], fSources := [ra, rb] }
  | .fmul rd ra rb => { fDests := [rd], fSources := [ra, rb], readsModsub := true }
  | .fneg rd ra => { fDests := [rd], fSources := [ra] }
  | .finv rd ra => { fDests := [rd], fSources := [ra], readsModsub := true, outcomes := [0, 1] }
  | .fginv rd ra => { fDests := [rd], fSources := [ra], readsModsub := true, outcomes := [0, 2] }
  | .fexp rd ra rb => { fDests := [rd], fSources := [ra, rb], readsModsub := true }
  | .fdeg ra => { fSources := [ra], writesRes := true }
  | .fbit ra _ => { fSources := [ra], writesRes := true }
  | .fdiv rd re ra rb => { fDests := [rd, re], fSources := [ra, rb], outcomes := [0, 1] }
  | .fmdiv rd re ra => { fDests := [rd, re], fSources := [ra], readsModsub := true, outcomes := [0, 1] }
  | .pzero rd => { ring := true, pDests := [rd] }
  | .pone rd => { ring := true, pDests := [rd] }
  | .padd rd ra rb => { ring := true, pDests := [rd], pSources := [ra, rb] }
  | .pmul rd ra rb => { ring := true, pDests := [rd], pSources := [ra, rb], outcomes := [0, 4] }
  | .pneg rd ra => { ring := true, pDests := [rd], pSources := [ra] }
  | .pdiv rd re ra rb => { ring := true, pDests := [rd, re], pSources := [ra, rb], outcomes := [0, 1] }
  | .pshl1 rd => { ring := true, pDests := [rd], pSources := [rd], outcomes := [0, 4] }
  | .pshl rd _ => { ring := true, pDests := [rd], pSources := [rd], outcomes := [0, 4] }
  | .pshr1 rd => { ring := true, pDests := [rd], pSources := [rd] }
  | .paddi rd ra => { ring := true, pDests := [rd], pSources := [rd, ra] }
  | .pclean rd => { ring := true, pDests := [rd], pSources := [rd] }
  | .pdeg ra => { ring := true, pSources := [ra], writesRes := true }
  | .pbit ra _ => { ring := true, pSources := [ra], writesRes := true }

/-- The transactions that hand a value back to the host: `Issue` and `PortRead` (70_reset_and_hazards.md R201). -/
def answers : Transaction → Bool
  | .issue _ => true
  | .portRead _ _ => true
  | .portWrite _ _ _ => false
  | .reset => false

/-! ### Illegal words -/

/-- The opcodes of the table (30_encoding.md R55). -/
def opcodes : List (BitVec 8) :=
  [0x01, 0x02, 0x10, 0x11, 0x12, 0x13, 0x14, 0x15, 0x16, 0x17, 0x18, 0x19, 0x1A, 0x1B,
    0x20, 0x21, 0x22, 0x23, 0x24, 0x25, 0x26, 0x27, 0x28, 0x29, 0x2A, 0x2B, 0x2C]

/-- The opcodes of format I: FBIT, PSHL, PBIT (30_encoding.md R52). -/
def opcodesI : List (BitVec 8) := [0x19, 0x27, 0x2C]

/-- The opcodes whose `rd` column is marked unused (30_encoding.md R55). -/
def opcodesNoRd : List (BitVec 8) := [0x01, 0x02, 0x18, 0x19, 0x2B, 0x2C]

/-- The opcodes whose `ra` column is marked unused (30_encoding.md R55). -/
def opcodesNoRa : List (BitVec 8) := [0x02, 0x10, 0x11, 0x20, 0x21, 0x26, 0x27, 0x28, 0x2A]

/-- The opcodes of format R that use `rb` (30_encoding.md R55). -/
def opcodesRb : List (BitVec 8) := [0x12, 0x13, 0x17, 0x1A, 0x22, 0x23, 0x25]

/-- The opcodes that use `re`: FDIV, FMDIV and PDIV (30_encoding.md R55). -/
def opcodesRe : List (BitVec 8) := [0x1A, 0x1B, 0x25]

/-- A command word is illegal: the cases (a) to (e) of 30_encoding.md R56, written on the bits of the word. -/
def IllegalWord (cw : CommandWord) : Prop :=
  cw.extractLsb' 24 8 ∉ opcodes ∨
  (cw.extractLsb' 24 8 ∉ opcodesI ∧ cw.extractLsb' 0 12 ≠ 0) ∨
  (cw.extractLsb' 24 8 ∈ opcodesI ∧ cw.extractLsb' 16 2 ≠ 0) ∨
  (cw.extractLsb' 24 8 ∈ opcodesNoRd ∧ cw.extractLsb' 21 3 ≠ 0) ∨
  (cw.extractLsb' 24 8 ∈ opcodesNoRa ∧ cw.extractLsb' 18 3 ≠ 0) ∨
  (cw.extractLsb' 24 8 ∉ opcodesI ∧ cw.extractLsb' 24 8 ∉ opcodesRb ∧ cw.extractLsb' 15 3 ≠ 0) ∨
  (cw.extractLsb' 24 8 ∉ opcodesI ∧ cw.extractLsb' 24 8 ∉ opcodesRe ∧ cw.extractLsb' 12 3 ≠ 0) ∨
  (cw.extractLsb' 24 8 ∈ opcodesRe ∧ cw.extractLsb' 21 3 = cw.extractLsb' 12 3) ∨
  (cw.extractLsb' 24 8 = 0x29 ∧ cw.extractLsb' 21 3 = cw.extractLsb' 18 3)

end Sys2Proof.Machine
end

