-- ==== Sys2Proof/Certificates/Slice0/Obligations.lean ====
section
/-! DEFINITION. The statements for the provers, one proposition each (OBLIGATIONS.json lists them). -/

open Sys2Proof Sys2Proof.Machine Sys2Proof.Config

/-- For every well-formed command, with every operand at every value its field admits, the decoder reads from the
encoder's word exactly that command. [30_encoding.md sections 1 to 3 and 5; derived] -/
def Obligations.DecodeOfEncodeIsTheCommand : Prop :=
  ∀ i : Instr, i.wf = true → decode (encode i) = .ok i

/-- If the decoder accepts a word as a command, the command is well formed and its encoding is that word: no set bit of
an accepted word is ignored. [30_encoding.md sections 1 to 4; derived] -/
def Obligations.EncodeOfDecodeIsTheWord : Prop :=
  ∀ (cw : CommandWord) (i : Instr), decode cw = .ok i → i.wf = true ∧ encode i = cw

/-- An accepted word has the match of its command's row under the row's mask; a word that has the match of a row under
its mask is accepted as a command of that row, unless an operand constraint rejects it. [30_encoding.md section 3
(the opcode map), opcode_table.json (match and mask of each row); derived] -/
def Obligations.DecodedWordsMatchTheirTableRow : Prop :=
  (∀ (cw : CommandWord) (i : Instr), decode cw = .ok i → cw &&& (tableRow i).2 = (tableRow i).1) ∧
  (∀ (cw : CommandWord) (j : Instr), cw &&& (tableRow j).2 = (tableRow j).1 →
    (∃ i : Instr, decode cw = .ok i ∧ tableRow i = tableRow j) ∨ decode cw = .error .operandConstraint)

/-- The decoder rejects exactly the words of cases (a) to (e); issuing such a word leaves every register but STATUS,
which becomes 3 (and the host is handed 3); the all-zero and the all-ones word are illegal; every other word is the
encoding of a well-formed command. [R56; stated] -/
def Obligations.IllegalWordsChangeOnlyStatus : Prop :=
  (∀ cw : CommandWord,
    (IllegalWord cw ↔ ∃ e, decode cw = .error e) ∧
    (IllegalWord cw → ∀ s : State, s.issue cw =
      .next { s with regs := { s.regs with status := 3 }, returned := s.returned ++ [.outcome 3] }) ∧
    (¬ IllegalWord cw → ∃ i : Instr, i.wf = true ∧ encode i = cw)) ∧
  IllegalWord 0x00000000 ∧ IllegalWord 0xFFFFFFFF

/-- The seven words of the spec's worked encodings (marked derived there) decode to the commands written beside them.
[30_encoding.md section 6 (worked encodings); derived] -/
def Obligations.WorkedEncodingsDecode : Prop :=
  decode 0x13408000 = .ok (.fmul 2 0 1) ∧ decode 0x2540B000 = .ok (.pdiv 2 3 0 1) ∧
  decode 0x2720000D = .ok (.pshl 1 13) ∧ decode 0x2C14000E = .ok (.pbit 5 14) ∧
  decode 0x010C0000 = .ok (.setmod 3) ∧ decode 0x02000000 = .ok .defmod ∧ decode 0x1B302000 = .ok (.fmdiv 1 2 4)

/-- With rd = re, the words of FDIV, FMDIV and PDIV are rejected by the decoder, and the command itself writes STATUS 3
and nothing else; with rd and re different no such word is rejected. (R58 and 60_exceptions.md R174 speak of the
word; that the ill-formed command given to exec does as its word is the model's inference, log 7.) [30_encoding.md
section 5, 60_exceptions.md section 2; derived] -/
def Obligations.EqualDestinationsAreIllegal : Prop :=
  ∀ d a b e : Fin 8,
    decode (formatR 0x1A d a b d) = .error .operandConstraint ∧
    decode (formatR 0x1B d a 0 d) = .error .operandConstraint ∧
    decode (formatR 0x25 d a b d) = .error .operandConstraint ∧
    (∀ s : State,
      exec (.fdiv d d a b) s = .next { s with regs := { s.regs with status := 3 } } ∧
      exec (.fmdiv d d a) s = .next { s with regs := { s.regs with status := 3 } } ∧
      exec (.pdiv d d a b) s = .next { s with regs := { s.regs with status := 3 } }) ∧
    (d ≠ e → decode (formatR 0x1A d a b e) = .ok (.fdiv d e a b) ∧ decode (formatR 0x1B d a 0 e) = .ok (.fmdiv d e a) ∧
      decode (formatR 0x25 d a b e) = .ok (.pdiv d e a b))

/-- With rd = ra the word of PADDI is rejected by the decoder and the command itself writes STATUS 3 and nothing else;
with different buffers it is accepted. The zero polynomial is obtained by PZERO or by PADD of a buffer with itself.
(R59 and 60_exceptions.md R174 speak of the word; that the ill-formed command given to exec does as its word is the
model's inference, log 7.) [30_encoding.md section 5, 60_exceptions.md section 2; derived] -/
def Obligations.PaddiWithOneBufferIsIllegal : Prop :=
  ∀ d a : Fin 8,
    decode (formatR 0x29 d d 0 0) = .error .operandConstraint ∧
    (d ≠ a → decode (formatR 0x29 d a 0 0) = .ok (.paddi d a)) ∧
    (∀ s : State,
      exec (.paddi d d) s = .next { s with regs := { s.regs with status := 3 } } ∧
      exec (.pzero d) s = .next { s with regs := { s.regs with p := s.regs.p.set d [], status := 0 } } ∧
      exec (.padd d a a) s = .next { s with regs := { s.regs with p := s.regs.p.set d [], status := 0 } })

/-- If the next pending transaction issues a word that decodes to i, and exec i gives t on the state without that
transaction, the step gives t with the new STATUS handed back. So does the step after the command's word is put first
by withFetchWord. (The list of pending transactions is the model's own, log 2.) [20_memory.md sections 2 and 7,
10_state.md section 3; derived] -/
def Obligations.StepIssuesTheDecodedCommand : Prop :=
  (∀ (s t : State) (cw : CommandWord) (rest : List Transaction) (i : Instr),
    s.pending = .issue cw :: rest → decode cw = .ok i → exec i { s with pending := rest } = .next t →
    step s = .next { t with returned := t.returned ++ [.outcome t.regs.status] }) ∧
  (∀ (s t : State) (i : Instr), i.wf = true → exec i s = .next t →
    step (s.withFetchWord 32 (encode i).toNat) = .next { t with returned := t.returned ++ [.outcome t.regs.status] })

/-- Every step from every state gives a next state; with no transaction pending that is the state itself (idle, log 3).
[70_reset_and_hazards.md section 3, 60_exceptions.md section 7; derived] -/
def Obligations.EveryStepAnswersANextState : Prop :=
  (∀ s : State, ∃ t : State, step s = .next t) ∧
  (∀ s : State, s.pending = [] → step s = .next s)

/-- From every state with a finite list pending, as many steps as the list is long end with nothing pending; exactly the
Issue and PortRead transactions have handed a value back, after the ones already there. (The two lists are the
model's own, log 2.) [70_reset_and_hazards.md section 2; derived] -/
def Obligations.EveryHostListRunsToOneEnd : Prop :=
  ∀ (ts : List Transaction) (s : State), ∃ (t : State) (rs : List Response),
    Sys2Proof.core.run ts.length { s with pending := ts } = .next t ∧
    t.pending = [] ∧ t.returned = s.returned ++ rs ∧ rs.length = (ts.filter answers).length

/-- W and LMAX after a step are W and LMAX before it. [00_scope.md section 4; derived] -/
def Obligations.StepKeepsTheInstance : Prop :=
  ∀ s t : State, step s = .next t → t.width = s.width ∧ t.lmax = s.lmax

/-- From every state with a legal instance, every buffer within LMAX, STATUS at most 4 and RES between -1 and LMAX*W-1
(when LMAX is bounded), a step gives a state that is so again. [00_scope.md section 4, 10_state.md sections 1, 4, 5
and 6, 60_exceptions.md section 2; derived] -/
def Obligations.StepKeepsTheInvariant : Prop :=
  ∀ s t : State, s.inv = true → step s = .next t → t.inv = true

/-- State.resetOf of every width and every legal capacity meets the invariant, and so does State.reset (the instance of
log 1). [00_scope.md section 4, 10_state.md section 10; derived] -/
def Obligations.ResetMeetsTheInvariant : Prop :=
  (∀ (width : Width) (lmax : Option Nat), (State.resetOf width lmax).instanceLegal = true →
    (State.resetOf width lmax).inv = true) ∧ State.reset.inv = true

/-- In the reset state of every instance the word registers are 0, the buffers empty, MODSUB is DEFAULT_C(W) (0x1B, 0x2B,
0x8D, 0x1B, 0x87), RES and STATUS are 0; with nothing pending a step keeps it; and a command word offered is issued
by the next step. (What a step does with nothing pending is the model's inference, log 3; the empty list of pending
transactions and withFetchWord, which offers the word, are the model's own, log 2.) [10_state.md section 10,
70_reset_and_hazards.md sections 1 and 2; derived] -/
def Obligations.ResetLeavesTheStatedValues : Prop :=
  (∀ (width : Width) (lmax : Option Nat),
    (∀ i : Fin 8, (State.resetOf width lmax).regs.f[i] = 0 ∧ (State.resetOf width lmax).regs.p[i] = []) ∧
    (State.resetOf width lmax).regs.res = 0 ∧ (State.resetOf width lmax).regs.status = 0 ∧
    step (State.resetOf width lmax) = .next (State.resetOf width lmax) ∧
    (∀ cw : CommandWord, step ((State.resetOf width lmax).withFetchWord 32 cw.toNat) =
      (State.resetOf width lmax).issue cw)) ∧
  (∀ lmax : Option Nat, (State.resetOf .w8 lmax).regs.modsub = 0x1B ∧ (State.resetOf .w16 lmax).regs.modsub = 0x2B ∧
    (State.resetOf .w32 lmax).regs.modsub = 0x8D ∧ (State.resetOf .w64 lmax).regs.modsub = 0x1B ∧
    (State.resetOf .w128 lmax).regs.modsub = 0x87)

/-- A pending reset makes the next step set every register to its reset value; the instance stays, and the host's
remaining transactions and what it was handed stay (the model's choice for its own fields, log 10).
[70_reset_and_hazards.md section 1; derived] -/
def Obligations.ResetTransactionRestoresEveryRegister : Prop :=
  ∀ (s : State) (rest : List Transaction), s.pending = .reset :: rest →
    step s = .next { s with regs := (State.resetOf s.width s.lmax).regs, pending := rest }

/-- For every command and every command word: if STATUS after it is not 0, the state after differs from the state before
only in STATUS; issuing the word also hands that code back. [R172; stated] -/
def Obligations.FailuresWriteOnlyStatus : Prop :=
  (∀ (i : Instr) (s t : State), exec i s = .next t → t.regs.status ≠ 0 →
    t = { s with regs := { s.regs with status := t.regs.status } }) ∧
  (∀ (cw : CommandWord) (s t : State), s.issue cw = .next t → t.regs.status ≠ 0 →
    t = { s with regs := { s.regs with status := t.regs.status }
                 returned := s.returned ++ [.outcome t.regs.status] })

/-- The STATUS code after a well-formed command is one of those the table of failure kinds lists for it, and after any
word issued it is at most 4. [60_exceptions.md section 1, 10_state.md section 4; derived] -/
def Obligations.OutcomesAreTheListedOnes : Prop :=
  (∀ (i : Instr) (s t : State), i.wf = true → exec i s = .next t → t.regs.status ∈ (effects i).outcomes) ∧
  (∀ (cw : CommandWord) (s t : State), s.issue cw = .next t → t.regs.status.toNat ≤ 4)

/-- For every well-formed form and every state, zero operands included: SETMOD, DEFMOD, FZERO, FONE, FADD, FMUL, FNEG,
FEXP, FDEG, FBIT, PZERO, PONE, PADD, PNEG, PSHR1, PADDI, PCLEAN, PDEG and PBIT give a next state with STATUS 0; PMUL,
PSHL1 and PSHL give one with STATUS 0 or 4, and 0 when LMAX is unbounded. [R173; stated] -/
def Obligations.CommandsThatNeverFail : Prop :=
  ∀ s : State,
    (∀ i ∈ ([.defmod] : List Instr) ++ (List.finRange 8).flatMap (fun d => [.setmod d, .fzero d, .fone d, .fdeg d, .pzero d, .pone d, .pshr1 d, .pclean d, .pdeg d]),
      ∃ t, exec i s = .next t ∧ t.regs.status = 0) ∧
    (∀ (d a b : Fin 8) (n : Imm16), ∀ i ∈ ([.fadd d a b, .fmul d a b, .fneg d a, .fexp d a b, .fbit a n, .padd d a b, .pneg d a, .pbit a n] : List Instr),
      ∃ t, exec i s = .next t ∧ t.regs.status = 0) ∧
    (∀ d a : Fin 8, d ≠ a → ∃ t, exec (.paddi d a) s = .next t ∧ t.regs.status = 0) ∧
    (∀ (d a b : Fin 8) (n : Imm16), ∀ i ∈ ([.pmul d a b, .pshl1 d, .pshl d n] : List Instr),
      ∃ t, exec i s = .next t ∧ (t.regs.status = 0 ∨ t.regs.status = 4) ∧ (s.lmax = none → t.regs.status = 0))

/-- Every word command gives a next state that keeps every buffer, every word register but its destinations, MODSUB
unless it is SETMOD or DEFMOD, and RES unless it is FDEG or FBIT; width, capacity, and the host's side stay.
[42_field.md introduction, 10_state.md sections 4, 5 and 9, 30_encoding.md section 3; derived] -/
def Obligations.WordCommandFrame : Prop :=
  ∀ (i : Instr) (s : State), (effects i).ring = false →
    ∃ (f' : Vector (Word s.width.bits) 8) (m' : Word s.width.bits) (r' : BitVec 32) (st' : BitVec 8),
      exec i s = .next { s with regs := { s.regs with f := f', modsub := m', res := r', status := st' } } ∧
      (∀ j : Fin 8, j ∉ (effects i).fDests → f'[j] = s.regs.f[j]) ∧
      ((effects i).writesModsub = false → m' = s.regs.modsub) ∧
      ((effects i).writesRes = false → r' = s.regs.res)

/-- Every polynomial command gives a next state that keeps every word register and MODSUB, every buffer but its
destinations, and RES unless it is PDEG or PBIT; width, capacity, and the host's side stay. [41_polyring.md
introduction, 10_state.md sections 4, 6 and 9, 30_encoding.md section 3; derived] -/
def Obligations.RingCommandFrame : Prop :=
  ∀ (i : Instr) (s : State), (effects i).ring = true →
    ∃ (p' : Vector (Seq s.width.bits) 8) (r' : BitVec 32) (st' : BitVec 8),
      exec i s = .next { s with regs := { s.regs with p := p', res := r', status := st' } } ∧
      (∀ j : Fin 8, j ∉ (effects i).pDests → p'[j] = s.regs.p[j]) ∧
      ((effects i).writesRes = false → r' = s.regs.res)

/-- If a step changes RES, the transaction it performed was a reset, or issued one of the four commands that write RES,
and that command ended with STATUS 0. [10_state.md section 4; derived] -/
def Obligations.ResChangesOnlyByItsFourCommands : Prop :=
  ∀ s t : State, step s = .next t → t.regs.res ≠ s.regs.res →
    ∃ rest, s.pending = .reset :: rest ∨
      ∃ cw i, s.pending = .issue cw :: rest ∧ decode cw = .ok i ∧ (effects i).writesRes = true ∧ t.regs.status = 0

/-- If a step changes MODSUB, the transaction it performed was a reset or issued SETMOD or DEFMOD: no other command and
no port write changes it. [10_state.md section 5, 20_memory.md section 2; derived] -/
def Obligations.ModsubChangesOnlyBySetmodDefmodReset : Prop :=
  ∀ s t : State, step s = .next t → t.regs.modsub.toNat ≠ s.regs.modsub.toNat →
    ∃ rest, s.pending = .reset :: rest ∨
      ∃ cw i, s.pending = .issue cw :: rest ∧ decode cw = .ok i ∧ (effects i).writesModsub = true

/-- Run one command on two register states of one instance that agree on its source registers, and on MODSUB if it reads
it: the outcome codes agree, and when it is OK every destination, RES and MODSUB as far as it writes them agree.
[10_state.md section 8; derived] -/
def Obligations.NamedSourcesDetermineTheResult : Prop :=
  ∀ (i : Instr) (s : State) (x : Regs s.width.bits),
    (∀ j ∈ (effects i).fSources, x.f[j] = s.regs.f[j]) →
    (∀ j ∈ (effects i).pSources, x.p[j] = s.regs.p[j]) →
    ((effects i).readsModsub = true → x.modsub = s.regs.modsub) →
    ∃ r r2 : Regs s.width.bits, exec i s = .next { s with regs := r } ∧ exec i { s with regs := x } = .next { s with regs := r2 } ∧
      r2.status = r.status ∧
      (r.status = 0 → (∀ j ∈ (effects i).fDests, r2.f[j] = r.f[j]) ∧ (∀ j ∈ (effects i).pDests, r2.p[j] = r.p[j]) ∧
        ((effects i).writesRes = true → r2.res = r.res) ∧ ((effects i).writesModsub = true → r2.modsub = r.modsub))

/-- SETMOD gives the next state in which MODSUB holds f[ra], STATUS is 0 and nothing else changed; its worked word
decodes to it. [42_field.md section 2; derived] -/
def Obligations.SetmodLoadsModsub : Prop :=
  (∀ (a : FReg) (s : State),
    exec (.setmod a) s = .next { s with regs := { s.regs with modsub := s.regs.f[a], status := 0 } }) ∧
  decode 0x010C0000 = .ok (.setmod 3)

/-- The word 0x02000000 is DEFMOD; it gives the next state in which MODSUB holds DEFAULT_C(W), STATUS is 0 and nothing
else changed; DEFAULT_C is 0x1B, 0x2B, 0x8D, 0x1B, 0x87 for W = 8, 16, 32, 64, 128. [R122; stated] -/
def Obligations.DefmodRestoresTheBuiltInConstant : Prop :=
  decode 0x02000000 = .ok .defmod ∧ encode .defmod = 0x02000000 ∧
  (∀ s : State, exec .defmod s = .next { s with regs := { s.regs with modsub := defaultC s.width, status := 0 } }) ∧
  defaultC .w8 = 0x1B ∧ defaultC .w16 = 0x2B ∧ defaultC .w32 = 0x8D ∧ defaultC .w64 = 0x1B ∧ defaultC .w128 = 0x87

/-- FZERO and FONE, opcodes 0x10 and 0x11 with only rd used, give the next state in which f[rd] is 0 (or 1), STATUS is 0
and nothing else changed; the worked words decode so. [R124, R125; stated] -/
def Obligations.FzeroFoneWriteTheConstants : Prop :=
  (∀ (d : FReg) (s : State),
    decode (formatR 0x10 d 0 0 0) = .ok (.fzero d) ∧ decode (formatR 0x11 d 0 0 0) = .ok (.fone d) ∧
    exec (.fzero d) s = .next { s with regs := { s.regs with f := s.regs.f.set d 0, status := 0 } } ∧
    exec (.fone d) s = .next { s with regs := { s.regs with f := s.regs.f.set d 1, status := 0 } }) ∧
  decode 0x10A00000 = .ok (.fzero 5) ∧ decode 0x11000000 = .ok (.fone 0)

/-- FADD, opcode 0x12, gives the next state in which f[rd] is f[ra] xor f[rb], STATUS is 0 and nothing else changed; so a
register added to itself gives 0; and 0x8F xor 0x33 is 0xBC. [R126; stated] -/
def Obligations.FaddWritesTheXor : Prop :=
  (∀ (d a b : FReg) (s : State),
    decode (formatR 0x12 d a b 0) = .ok (.fadd d a b) ∧
    exec (.fadd d a b) s =
      .next { s with regs := { s.regs with f := s.regs.f.set d (s.regs.f[a] ^^^ s.regs.f[b]), status := 0 } } ∧
    exec (.fadd d a a) s = .next { s with regs := { s.regs with f := s.regs.f.set d 0, status := 0 } }) ∧
  (0x8F ^^^ 0x33 : Word 8) = 0xBC

/-- FNEG (0x14) copies the word; PNEG (0x24) copies the sequence word for word with its length; STATUS becomes 0 and
nothing else changes; with rd = ra only STATUS changes. [R128, R84; stated] -/
def Obligations.NegationsCopyTheSource : Prop :=
  ∀ (d a : Fin 8) (s : State),
    decode (formatR 0x14 d a 0 0) = .ok (.fneg d a) ∧ decode (formatR 0x24 d a 0 0) = .ok (.pneg d a) ∧
    exec (.fneg d a) s = .next { s with regs := { s.regs with f := s.regs.f.set d s.regs.f[a], status := 0 } } ∧
    exec (.pneg d a) s = .next { s with regs := { s.regs with p := s.regs.p.set d s.regs.p[a], status := 0 } } ∧
    exec (.pneg d d) s = .next { s with regs := { s.regs with status := 0 } }

/-- For all operands and every MODSUB, irreducible modulus or not, FMUL gives the next state in which f[rd] is the
remainder of clmul(f[ra], f[rb]) by 2^W + MODSUB, STATUS is 0 and nothing else changed (the value the spec derives
for the shift-and-reduce procedure). [42_field.md sections 1 and 4; derived] -/
def Obligations.FmulWritesTheFieldProduct : Prop :=
  ∀ (d a b : FReg) (s : State),
    exec (.fmul d a b) s = .next { s with regs := { s.regs with
      f := s.regs.f.set d (BitVec.ofNat _ (fieldmul (modulus s.regs.modsub) s.regs.f[a].toNat s.regs.f[b].toNat))
      status := 0 } }

/-- For every width, every MODSUB and all words. [42_field.md section 9; derived] -/
def Obligations.FmulLaws : Prop :=
  ∀ (width : Width) (a b d c : Word width.bits),
    fmul a b c = fmul b a c ∧ fmul (fmul a b c) d c = fmul a (fmul b d c) c ∧
    fmul a (b ^^^ d) c = fmul a b c ^^^ fmul a d c ∧ fmul a 1 c = a ∧ fmul 1 a c = a

/-- With f[ra] not 0, FINV gives the next state in which f[rd] is f[ra] multiplied by itself 2^W - 2 times modulo 2^W +
MODSUB, STATUS is 0 and nothing else changed; with f[ra] = 0 only STATUS changes, to 1. [42_field.md section 5,
60_exceptions.md section 1; derived] -/
def Obligations.FinvWritesTheFermatPower : Prop :=
  ∀ (d a : FReg) (s : State),
    (s.regs.f[a] ≠ 0 → exec (.finv d a) s = .next { s with regs := { s.regs with
      f := s.regs.f.set d (BitVec.ofNat _ (fieldpow (modulus s.regs.modsub) s.regs.f[a].toNat (2 ^ s.width.bits - 2)))
      status := 0 } }) ∧
    (s.regs.f[a] = 0 → exec (.finv d a) s = .next { s with regs := { s.regs with status := 1 } })

/-- FEXP gives the next state in which f[rd] is f[ra] multiplied by itself f[rb] times modulo 2^W + MODSUB (1 for
exponent 0, base 0 included), STATUS is 0 and nothing else changed. [42_field.md section 5; derived] -/
def Obligations.FexpWritesThePower : Prop :=
  ∀ (d a b : FReg) (s : State),
    exec (.fexp d a b) s = .next { s with regs := { s.regs with
      f := s.regs.f.set d (BitVec.ofNat _ (fieldpow (modulus s.regs.modsub) s.regs.f[a].toNat s.regs.f[b].toNat))
      status := 0 } }

/-- With a = f[ra] not 0 and M = 2^W + MODSUB, irreducible or not, FGINV gives the next state in which f[rd] is a word x
with x*a = g modulo M, where g divides a and M and every common divisor divides g; STATUS is 0 and nothing else
changed. With a = 0 only STATUS changes, to 2. [42_field.md section 6, 43_xgcd.md section 2; derived] -/
def Obligations.FginvWritesABezoutCoefficient : Prop :=
  ∀ (d a : FReg) (s : State),
    (s.regs.f[a] ≠ 0 → ∃ (x : Word s.width.bits) (g : Nat),
      exec (.fginv d a) s = .next { s with regs := { s.regs with f := s.regs.f.set d x, status := 0 } } ∧
      fieldmul (modulus s.regs.modsub) x.toNat s.regs.f[a].toNat = g ∧ g ≠ 0 ∧
      (pdivmod s.regs.f[a].toNat g).2 = 0 ∧ (pdivmod (modulus s.regs.modsub) g).2 = 0 ∧
      (∀ c, c ≠ 0 → (pdivmod s.regs.f[a].toNat c).2 = 0 → (pdivmod (modulus s.regs.modsub) c).2 = 0 → (pdivmod g c).2 = 0)) ∧
    (s.regs.f[a] = 0 → exec (.fginv d a) s = .next { s with regs := { s.regs with status := 2 } })

/-- If 2^W + MODSUB is irreducible and f[ra] is not 0, FGINV gives the next state in which f[rd] is a word whose product
with f[ra] modulo 2^W + MODSUB is 1, STATUS is 0 and nothing else changed. [42_field.md sections 2 and 6, 43_xgcd.md
section 2; derived] -/
def Obligations.FginvInvertsUnderAnIrreducibleModulus : Prop :=
  ∀ (d a : FReg) (s : State), IrreducibleModulus (modulus s.regs.modsub) → s.regs.f[a] ≠ 0 →
    ∃ x : Word s.width.bits,
      exec (.fginv d a) s = .next { s with regs := { s.regs with f := s.regs.f.set d x, status := 0 } } ∧
      fieldmul (modulus s.regs.modsub) s.regs.f[a].toNat x.toNat = 1

/-- If 2^W + MODSUB is irreducible and f[ra] is not 0, FINV and FGINV give the same next state, and it is one in which
STATUS is 0 and f[rd] times f[ra] modulo 2^W + MODSUB is 1. [42_field.md sections 2, 5, 6 and 9; derived] -/
def Obligations.InversionPathsAgreeUnderAnIrreducibleModulus : Prop :=
  ∀ (d a : FReg) (s : State), IrreducibleModulus (modulus s.regs.modsub) → s.regs.f[a] ≠ 0 →
    ∃ x : Word s.width.bits,
      exec (.finv d a) s = .next { s with regs := { s.regs with f := s.regs.f.set d x, status := 0 } } ∧
      exec (.fginv d a) s = .next { s with regs := { s.regs with f := s.regs.f.set d x, status := 0 } } ∧
      fieldmul (modulus s.regs.modsub) s.regs.f[a].toNat x.toNat = 1

/-- FDEG, opcode 0x18 with only ra used, gives the next state in which STATUS is 0, nothing but RES changed otherwise,
and RES is 0xFFFFFFFF if f[ra] is 0, else the largest i with bit i of f[ra] set; the examples 0x8F, 0x33, 0x01 have
degrees 7, 5, 0. [R132; stated] -/
def Obligations.FdegWritesTheDegree : Prop :=
  (∀ (a : FReg) (s : State),
    decode (formatR 0x18 0 a 0 0) = .ok (.fdeg a) ∧
    (s.regs.f[a] = 0 → exec (.fdeg a) s = .next { s with regs := { s.regs with res := 0xFFFFFFFF, status := 0 } }) ∧
    (∀ i : Nat, i < s.width.bits → s.regs.f[a].getLsbD i = true → (∀ j, i < j → s.regs.f[a].getLsbD j = false) →
      exec (.fdeg a) s = .next { s with regs := { s.regs with res := BitVec.ofNat 32 i, status := 0 } })) ∧
  fdeg (0x8F : Word 8) = 7 ∧ fdeg (0x33 : Word 8) = 5 ∧ fdeg (0x01 : Word 8) = 0 ∧ fdeg (0x00 : Word 8) = -1

/-- FBIT, opcode 0x19 in format I, gives the next state in which RES is bit imm16 of f[ra] when imm16 is below W and 0
otherwise, STATUS is 0 and nothing else changed; the examples of 0x8F at 7, 4, 0 and 8 read 1, 0, 1, 0. [R133;
stated] -/
def Obligations.FbitWritesTheBit : Prop :=
  (∀ (a : FReg) (n : Imm16) (s : State),
    decode (formatI 0x19 0 a n) = .ok (.fbit a n) ∧
    (n.toNat < s.width.bits → exec (.fbit a n) s = .next { s with regs := { s.regs with
      res := if s.regs.f[a].getLsbD n.toNat then 1 else 0, status := 0 } }) ∧
    (s.width.bits ≤ n.toNat → exec (.fbit a n) s = .next { s with regs := { s.regs with res := 0, status := 0 } })) ∧
  fbit (0x8F : Word 8) 7 = true ∧ fbit (0x8F : Word 8) 4 = false ∧ fbit (0x8F : Word 8) 0 = true ∧
  fbit (0x8F : Word 8) 8 = false

/-- With rd and re different and f[rb] not 0, FDIV gives the next state in which f[rd] and f[re] are the quotient and the
remainder of f[ra] by f[rb], STATUS is 0 and nothing else changed; with f[rb] = 0 only STATUS changes, to 1. Both
results come from the registers as they were before. [42_field.md section 8, 30_encoding.md section 5,
60_exceptions.md section 1; derived] -/
def Obligations.FdivWritesQuotientAndRemainder : Prop :=
  ∀ (d e a b : FReg) (s : State), d ≠ e →
    (s.regs.f[b] ≠ 0 → exec (.fdiv d e a b) s = .next { s with regs := { s.regs with
      f := (s.regs.f.set d (BitVec.ofNat _ (pdivmod s.regs.f[a].toNat s.regs.f[b].toNat).1)).set e
        (BitVec.ofNat _ (pdivmod s.regs.f[a].toNat s.regs.f[b].toNat).2)
      status := 0 } }) ∧
    (s.regs.f[b] = 0 → exec (.fdiv d e a b) s = .next { s with regs := { s.regs with status := 1 } })

/-- With rd and re different and f[ra] not 0, FMDIV gives the next state in which f[rd] is the quotient of 2^W + MODSUB
by f[ra] modulo 2^W and f[re] the remainder, STATUS is 0 and nothing else changed; the quotient is not cut when the
divisor's degree is at least 1; for divisor 1 it is MODSUB and the remainder 0. With f[ra] = 0 only STATUS changes,
to 1. [42_field.md section 8, 30_encoding.md section 5, 60_exceptions.md section 1; derived] -/
def Obligations.FmdivDividesTheModulus : Prop :=
  ∀ (d e a : FReg) (s : State), d ≠ e →
    (s.regs.f[a] ≠ 0 → exec (.fmdiv d e a) s = .next { s with regs := { s.regs with
      f := (s.regs.f.set d (BitVec.ofNat _ (pdivmod (modulus s.regs.modsub) s.regs.f[a].toNat).1)).set e
        (BitVec.ofNat _ (pdivmod (modulus s.regs.modsub) s.regs.f[a].toNat).2)
      status := 0 } }) ∧
    (s.regs.f[a] ≠ 0 → s.regs.f[a] ≠ 1 → (pdivmod (modulus s.regs.modsub) s.regs.f[a].toNat).1 < 2 ^ s.width.bits) ∧
    (s.regs.f[a] = 1 → exec (.fmdiv d e a) s = .next { s with regs := { s.regs with
      f := (s.regs.f.set d s.regs.modsub).set e 0, status := 0 } }) ∧
    (s.regs.f[a] = 0 → exec (.fmdiv d e a) s = .next { s with regs := { s.regs with status := 1 } })

/-- For every width, MODSUB and divisor of degree at least 1, fmul of FMDIV's quotient and the divisor, XORed with
FMDIV's remainder, is 0. [42_field.md section 8; derived] -/
def Obligations.ModulusDivisionProperty : Prop :=
  ∀ (width : Width) (d c : Word width.bits), 1 ≤ fdeg d → fmul (fmdiv d c).1 d c ^^^ (fmdiv d c).2 = 0

/-- PZERO and PONE, opcodes 0x20 and 0x21 with only rd used, give the next state in which p[rd] is [] (or the one word
1), STATUS is 0 and nothing else changed; the worked words decode so. [R80, R81; stated] -/
def Obligations.PzeroPoneWriteTheConstants : Prop :=
  (∀ (d : PReg) (s : State),
    decode (formatR 0x20 d 0 0 0) = .ok (.pzero d) ∧ decode (formatR 0x21 d 0 0 0) = .ok (.pone d) ∧
    exec (.pzero d) s = .next { s with regs := { s.regs with p := s.regs.p.set d [], status := 0 } } ∧
    exec (.pone d) s = .next { s with regs := { s.regs with p := s.regs.p.set d [1], status := 0 } }) ∧
  decode 0x20600000 = .ok (.pzero 3) ∧ decode 0x21000000 = .ok (.pone 0)

/-- Whatever the lengths and trailing zero words of the sources, PADD gives the next state in which p[rd] is
canon(val(p[ra]) xor val(p[rb])), STATUS is 0 and nothing else changed. [41_polyring.md section 2; derived] -/
def Obligations.PaddWritesTheCanonicalSum : Prop :=
  ∀ (d a b : PReg) (s : State),
    exec (.padd d a b) s = .next { s with regs := { s.regs with
      p := s.regs.p.set d (canon _ (val s.regs.p[a] ^^^ val s.regs.p[b])), status := 0 } }

/-- With q = canon(clmul(val(p[ra]), val(p[rb]))): if q is no longer than LMAX, PMUL gives the next state in which p[rd]
is q, STATUS is 0 and nothing else changed; if it is longer, only STATUS changes, to 4. [41_polyring.md section 3,
60_exceptions.md section 2; derived] -/
def Obligations.PmulWritesTheCanonicalProduct : Prop :=
  ∀ (d a b : PReg) (s : State) (q : Seq s.width.bits), q = canon _ (clmul (val s.regs.p[a]) (val s.regs.p[b])) →
    ((∀ n, s.lmax = some n → q.length ≤ n) →
      exec (.pmul d a b) s = .next { s with regs := { s.regs with p := s.regs.p.set d q, status := 0 } }) ∧
    (∀ n, s.lmax = some n → n < q.length →
      exec (.pmul d a b) s = .next { s with regs := { s.regs with status := 4 } })

/-- There is one sequence q of value val(p[rd]) shifted left by 1 whose length is that of p[rd], plus 1 exactly when the
top bit of the top word is set; if q is no longer than LMAX, PSHL1 gives the next state in which p[rd] is q, STATUS
is 0 and nothing else changed; else only STATUS changes, to 4. [41_polyring.md section 4, 60_exceptions.md section 2;
derived] -/
def Obligations.Pshl1DoublesTheValue : Prop :=
  ∀ (d : PReg) (s : State), ∃ q : Seq s.width.bits, val q = val s.regs.p[d] <<< 1 ∧
    q.length = s.regs.p[d].length + (if (s.regs.p[d].getLast?.getD 0).msb then 1 else 0) ∧
    ((∀ n, s.lmax = some n → q.length ≤ n) →
      exec (.pshl1 d) s = .next { s with regs := { s.regs with p := s.regs.p.set d q, status := 0 } }) ∧
    (∀ n, s.lmax = some n → n < q.length →
      exec (.pshl1 d) s = .next { s with regs := { s.regs with status := 4 } })

/-- There is one sequence q of value val(p[rd]) shifted left by imm16 whose length is that of p[rd] plus imm16 div W,
plus 1 exactly when imm16 mod W > 0 and the top word's upper imm16 mod W bits are not all zero; if q is no longer
than LMAX, PSHL gives the next state in which p[rd] is q, STATUS is 0 and nothing else changed; else only STATUS
changes, to 4. [41_polyring.md section 4, 60_exceptions.md section 2; derived] -/
def Obligations.PshlShiftsTheValue : Prop :=
  ∀ (d : PReg) (n : Imm16) (s : State), ∃ q : Seq s.width.bits, val q = val s.regs.p[d] <<< n.toNat ∧
    q.length = s.regs.p[d].length + n.toNat / s.width.bits +
      (if n.toNat % s.width.bits ≠ 0 ∧
          (s.regs.p[d].getLast?.getD 0).toNat >>> (s.width.bits - n.toNat % s.width.bits) ≠ 0 then 1 else 0) ∧
    ((∀ l, s.lmax = some l → q.length ≤ l) →
      exec (.pshl d n) s = .next { s with regs := { s.regs with p := s.regs.p.set d q, status := 0 } }) ∧
    (∀ l, s.lmax = some l → l < q.length →
      exec (.pshl d n) s = .next { s with regs := { s.regs with status := 4 } })

/-- PSHR1 gives the next state in which p[rd] is the sequence of its old length whose value is the old value shifted
right by 1, STATUS is 0 and nothing else changed. [41_polyring.md section 4; derived] -/
def Obligations.Pshr1HalvesTheValue : Prop :=
  ∀ (d : PReg) (s : State), ∃ q : Seq s.width.bits, val q = val s.regs.p[d] >>> 1 ∧ q.length = s.regs.p[d].length ∧
    exec (.pshr1 d) s = .next { s with regs := { s.regs with p := s.regs.p.set d q, status := 0 } }

/-- With rd and ra different, PADDI gives the next state in which p[rd] is the sequence of the longer of the two lengths
whose value is the XOR of the two values, STATUS is 0 and nothing else changed. [41_polyring.md section 5; derived] -/
def Obligations.PaddiXorsInPlace : Prop :=
  ∀ (d a : PReg) (s : State), d ≠ a → ∃ q : Seq s.width.bits, val q = val s.regs.p[d] ^^^ val s.regs.p[a] ∧
    q.length = max s.regs.p[d].length s.regs.p[a].length ∧
    exec (.paddi d a) s = .next { s with regs := { s.regs with p := s.regs.p.set d q, status := 0 } }

/-- PCLEAN gives the next state in which p[rd] is canon(val(p[rd])), which has the old value and no zero top word; STATUS
is 0 and nothing else changed. [41_polyring.md section 5; derived] -/
def Obligations.PcleanCanonicalizes : Prop :=
  ∀ (d : PReg) (s : State),
    exec (.pclean d) s = .next { s with regs := { s.regs with p := s.regs.p.set d (canon _ (val s.regs.p[d])), status := 0 } } ∧
    val (canon s.width.bits (val s.regs.p[d])) = val s.regs.p[d] ∧
    (canon s.width.bits (val s.regs.p[d])).getLast? ≠ some 0

/-- PDEG gives a next state in which only RES and STATUS changed and STATUS is 0; when the degree of val(p[ra]) is below
2^31, RES is that degree in two's complement, so 0xFFFFFFFF for the value 0. (For a larger degree the model leaves
RES free, log 4; nothing is said of it.) [41_polyring.md section 6, 10_state.md sections 4 and 6; derived] -/
def Obligations.PdegWritesTheDegreeOfTheValue : Prop :=
  ∀ (a : PReg) (s : State),
    (deg (val s.regs.p[a]) < 2 ^ 31 → exec (.pdeg a) s =
      .next { s with regs := { s.regs with res := BitVec.ofInt 32 (deg (val s.regs.p[a])), status := 0 } }) ∧
    (∃ r, exec (.pdeg a) s = .next { s with regs := { s.regs with res := r, status := 0 } }) ∧
    (val s.regs.p[a] = 0 → exec (.pdeg a) s = .next { s with regs := { s.regs with res := 0xFFFFFFFF, status := 0 } })

/-- PBIT, opcode 0x2C in format I, gives the next state in which RES is bit imm16 mod W of word imm16 div W of p[ra] when
there is such a word and 0 otherwise, which is bit imm16 of val(p[ra]); STATUS is 0 and nothing else changed; the
examples of [0x0F, 0x4F] at 14, 15, 3, 4, 16 read 1, 0, 1, 0, 0. [R91; stated] -/
def Obligations.PbitWritesTheBit : Prop :=
  (∀ (a : PReg) (n : Imm16) (s : State),
    decode (formatI 0x2C 0 a n) = .ok (.pbit a n) ∧
    (∀ x, s.regs.p[a][n.toNat / s.width.bits]? = some x → exec (.pbit a n) s = .next { s with regs := { s.regs with
      res := if x.getLsbD (n.toNat % s.width.bits) then 1 else 0, status := 0 } }) ∧
    (s.regs.p[a].length ≤ n.toNat / s.width.bits → exec (.pbit a n) s =
      .next { s with regs := { s.regs with res := 0, status := 0 } }) ∧
    exec (.pbit a n) s = .next { s with regs := { s.regs with
      res := if (val s.regs.p[a]).testBit n.toNat then 1 else 0, status := 0 } }) ∧
  bitAt [0x0F#8, 0x4F#8] 14 = true ∧ bitAt [0x0F#8, 0x4F#8] 15 = false ∧ bitAt [0x0F#8, 0x4F#8] 3 = true ∧
  bitAt [0x0F#8, 0x4F#8] 4 = false ∧ bitAt [0x0F#8, 0x4F#8] 16 = false

/-- With rd and re different: a divisor of value 0 changes only STATUS, to 1; a dividend of lower degree than the divisor
gives [] in p[rd] and the dividend word for word in p[re]; otherwise p[rd] and p[re] are the canonical sequences of
the quotient and the remainder of the values. STATUS is 0 in the last two cases and nothing else changed.
[41_polyring.md section 7, 60_exceptions.md section 1; derived] -/
def Obligations.PdivRefinesPolynomialDivision : Prop :=
  ∀ (d e a b : PReg) (s : State), d ≠ e →
    (val s.regs.p[b] = 0 → exec (.pdiv d e a b) s = .next { s with regs := { s.regs with status := 1 } }) ∧
    (val s.regs.p[b] ≠ 0 → deg (val s.regs.p[a]) < deg (val s.regs.p[b]) →
      exec (.pdiv d e a b) s = .next { s with regs := { s.regs with
        p := (s.regs.p.set d []).set e s.regs.p[a], status := 0 } }) ∧
    (val s.regs.p[b] ≠ 0 → deg (val s.regs.p[b]) ≤ deg (val s.regs.p[a]) →
      exec (.pdiv d e a b) s = .next { s with regs := { s.regs with
        p := (s.regs.p.set d (canon _ (pdivmod (val s.regs.p[a]) (val s.regs.p[b])).1)).set e
          (canon _ (pdivmod (val s.regs.p[a]) (val s.regs.p[b])).2)
        status := 0 } })

/-- For b not 0, pdivmod(a, b) = (q, r) satisfies a = clmul(q, b) xor r and deg(r) < deg(b), and it is the only such
pair. [00_scope.md section 5; derived] -/
def Obligations.ValueDivisionIsEuclidean : Prop :=
  ∀ a b : Nat, b ≠ 0 →
    a = clmul (pdivmod a b).1 b ^^^ (pdivmod a b).2 ∧ deg (pdivmod a b).2 < deg b ∧
    (∀ q r : Nat, a = clmul q b ^^^ r → deg r < deg b → (q, r) = pdivmod a b)

/-- For every width, sequence and count: shift_left then shift_right then clean_up, and shift_left_by_bits by n then n
times shift_right then clean_up, both give clean_up of the sequence; a shift by 1 is shift_left. [41_polyring.md
sections 4 and 8; derived] -/
def Obligations.ShiftsRoundTrip : Prop :=
  ∀ (width : Width) (q : Seq width.bits) (n : Nat),
    cleanUp (shiftRight (shiftLeft q)) = cleanUp q ∧ cleanUp (shiftRight^[n] (shiftLeftByBits q n)) = cleanUp q ∧
    shiftLeftByBits q 1 = shiftLeft q

/-- For every width, every dividend b and every divisor a of value not 0: ring_add(ring_mul(q, a), r) is clean_up(b),
where (q, r) are the divider's results for b and clean_up(a). [41_polyring.md sections 7 and 8; derived] -/
def Obligations.DivisionRebuildsTheDividend : Prop :=
  ∀ (width : Width) (a b : Seq width.bits), val a ≠ 0 →
    ringAdd (ringMul (ringDiv b (cleanUp a)).1 a) (ringDiv b (cleanUp a)).2 = cleanUp b

/-- For every width and all sequences; and a sequence added to itself gives the empty sequence. [41_polyring.md section
8; derived] -/
def Obligations.RingLaws : Prop :=
  ∀ (width : Width) (a b d : Seq width.bits),
    ringAdd a b = ringAdd b a ∧ ringAdd (ringAdd a b) d = ringAdd a (ringAdd b d) ∧
    ringMul a b = ringMul b a ∧ ringMul (ringMul a b) d = ringMul a (ringMul b d) ∧
    ringMul a (ringAdd b d) = ringAdd (ringMul a b) (ringMul a d) ∧ ringAdd a a = []

/-- Selectors 0x00+i, 0x08, 0x09, 0x0A, 0x10+i and 0x20+i read f[i], MODSUB, STATUS, RES, the length of p[i] (for a
length below 2^32) and word k of p[i] (0 from the length up), each zero-extended; every other selector reads 0; the
step of a PortRead only hands that value back, so a second one returns the same; a PortWrite to 0x00+i writes f[i]
and nothing else; no port write changes STATUS or RES. (The 128-bit data lines, the zero-extension to them, and that
a value wider than a word is cut to its low W bits are the model's choice, log 6; R33 speaks of a W-bit value.)
[20_memory.md section 2; derived] -/
def Obligations.PortReadsReturnRegistersAndChangeNone : Prop :=
  ∀ (s : State) (k : Nat) (rest : List Transaction),
    (∀ sel : BitVec 8, s.pending = .portRead sel k :: rest →
      step s = .next { s with pending := rest, returned := s.returned ++ [.value (s.portRead sel k)] }) ∧
    (∀ i : Fin 8,
      s.portRead (BitVec.ofNat 8 i) k = s.regs.f[i].setWidth 128 ∧
      (s.regs.p[i].length < 2 ^ 32 → s.portRead (BitVec.ofNat 8 (0x10 + i)) k = BitVec.ofNat 128 s.regs.p[i].length) ∧
      s.portRead (BitVec.ofNat 8 (0x20 + i)) k = (s.regs.p[i].getD k 0).setWidth 128 ∧
      (∀ v : PortData, s.portWrite (BitVec.ofNat 8 i) k v =
        { s with regs := { s.regs with f := s.regs.f.set i (v.setWidth s.width.bits) } })) ∧
    s.portRead 0x08 k = s.regs.modsub.setWidth 128 ∧ s.portRead 0x09 k = s.regs.status.setWidth 128 ∧
    s.portRead 0x0A k = s.regs.res.setWidth 128 ∧
    (∀ sel : BitVec 8, 0x0A < sel.toNat → sel.toNat < 0x10 ∨ (0x17 < sel.toNat ∧ sel.toNat < 0x20) ∨ 0x27 < sel.toNat →
      s.portRead sel k = 0) ∧
    (∀ (sel : BitVec 8) (v : PortData), (s.portWrite sel k v).regs.status = s.regs.status ∧
      (s.portWrite sel k v).regs.res = s.regs.res)

/-- With n the 32-bit length written to selector 0x10+i: if n exceeds LMAX nothing changes; otherwise, if n is at most
the length, p[i] keeps its words 0 to n-1, and if it is more, p[i] gains zero words up to n (so n = 0 makes it
empty); nothing else changes. (That n is the low 32 bits of the 128-bit value written is the model's choice, log 6;
it shows only for values of 2^32 or more.) [20_memory.md section 2; derived] -/
def Obligations.PortLengthWriteResizesTheBuffer : Prop :=
  ∀ (s : State) (i : Fin 8) (k : Nat) (v : PortData),
    (∀ l, s.lmax = some l → l < (v.setWidth 32).toNat → s.portWrite (BitVec.ofNat 8 (0x10 + i)) k v = s) ∧
    ((∀ l, s.lmax = some l → (v.setWidth 32).toNat ≤ l) →
      ((v.setWidth 32).toNat ≤ s.regs.p[i].length → s.portWrite (BitVec.ofNat 8 (0x10 + i)) k v =
        { s with regs := { s.regs with p := s.regs.p.set i (s.regs.p[i].take (v.setWidth 32).toNat) } }) ∧
      (s.regs.p[i].length < (v.setWidth 32).toNat → s.portWrite (BitVec.ofNat 8 (0x10 + i)) k v =
        { s with regs := { s.regs with
          p := s.regs.p.set i (s.regs.p[i] ++ List.replicate ((v.setWidth 32).toNat - s.regs.p[i].length) 0) } }))

/-- PortWrite to 0x20+i with k below the length replaces word k of p[i] and nothing else; with k at or beyond it, and on
every selector from 0x08 to 0x0F, 0x18 to 0x1F and from 0x28 up, nothing changes. The step of a pending PortWrite to
any selector performs that write, on the state without the transaction, and hands nothing back. (That a value wider
than a word is cut to its low W bits is the model's choice, log 6; the list of pending transactions is the model's
own, log 2.) [20_memory.md section 2, 60_exceptions.md section 6; derived] -/
def Obligations.PortWordWriteAndIgnoredWrites : Prop :=
  ∀ (s : State) (k : Nat) (v : PortData),
    (∀ i : Fin 8,
      (k < s.regs.p[i].length → s.portWrite (BitVec.ofNat 8 (0x20 + i)) k v =
        { s with regs := { s.regs with p := s.regs.p.set i (s.regs.p[i].set k (v.setWidth _)) } }) ∧
      (s.regs.p[i].length ≤ k → s.portWrite (BitVec.ofNat 8 (0x20 + i)) k v = s)) ∧
    (∀ sel : BitVec 8, (0x07 < sel.toNat ∧ sel.toNat < 0x10) ∨ (0x17 < sel.toNat ∧ sel.toNat < 0x20) ∨ 0x27 < sel.toNat →
      s.portWrite sel k v = s) ∧
    (∀ (sel : BitVec 8) (rest : List Transaction), s.pending = .portWrite sel k v :: rest →
      step s = .next (({ s with pending := rest } : State).portWrite sel k v))

/-- For every sequence q that fits LMAX and the 32-bit length: performing the transactions of HostLoad(p[i], q) leaves
p[i] = q, trailing zero words included, and changes nothing else; what was pending after them is still pending.
[20_memory.md section 2; derived] -/
def Obligations.HostLoadLoadsTheSequence : Prop :=
  ∀ (s : State) (i : Fin 8) (q : Seq s.width.bits) (rest : List Transaction),
    q.length < 2 ^ 32 → (∀ l, s.lmax = some l → q.length ≤ l) →
    Sys2Proof.core.run (hostLoad i q).length { s with pending := hostLoad i q ++ rest } =
      .next ({ s with regs := { s.regs with p := s.regs.p.set i q }, pending := rest } : State)
end

