-- ==== Sys2Proof/Laws/Decode.lean ====
section
/-! SUPPORT. The fields of an encoded word, and what the decoder's shared part accepts. -/

namespace Sys2Proof

theorem toNat_append_add {m n : Nat} (x : BitVec m) (y : BitVec n) : (x ++ y).toNat = x.toNat * 2 ^ n + y.toNat := by
  rw [BitVec.toNat_append, ← Nat.shiftLeft_add_eq_or_of_lt y.isLt, Nat.shiftLeft_eq]

section FormatR
variable (op : BitVec 8) (rd ra rb re : Fin 8)

/-- A format R word as a number (30_encoding.md R51). -/
theorem toNat_formatR : (formatR op rd ra rb re).toNat =
    ((((op.toNat * 8 + rd) * 8 + ra) * 8 + rb) * 8 + re) * 4096 := by
  show (op ++ (BitVec.ofFin rd : BitVec 3) ++ (BitVec.ofFin ra : BitVec 3) ++ (BitVec.ofFin rb : BitVec 3)
    ++ (BitVec.ofFin re : BitVec 3) ++ 0#12).toNat = _
  simp only [toNat_append_add, BitVec.toNat_ofFin]
  simp

@[simp] theorem opField_formatR : opField (formatR op rd ra rb re) = op := by
  apply BitVec.eq_of_toNat_eq
  simp only [opField, BitVec.extractLsb'_toNat, toNat_formatR, Nat.shiftRight_eq_div_pow]
  have := op.isLt; omega

@[simp] theorem rdField_formatR : rdField (formatR op rd ra rb re) = BitVec.ofFin rd := by
  apply BitVec.eq_of_toNat_eq
  simp only [rdField, BitVec.extractLsb'_toNat, toNat_formatR, Nat.shiftRight_eq_div_pow, BitVec.toNat_ofFin]
  omega

@[simp] theorem raField_formatR : raField (formatR op rd ra rb re) = BitVec.ofFin ra := by
  apply BitVec.eq_of_toNat_eq
  simp only [raField, BitVec.extractLsb'_toNat, toNat_formatR, Nat.shiftRight_eq_div_pow, BitVec.toNat_ofFin]
  omega

@[simp] theorem rbField_formatR : rbField (formatR op rd ra rb re) = BitVec.ofFin rb := by
  apply BitVec.eq_of_toNat_eq
  simp only [rbField, BitVec.extractLsb'_toNat, toNat_formatR, Nat.shiftRight_eq_div_pow, BitVec.toNat_ofFin]
  omega

@[simp] theorem reField_formatR : reField (formatR op rd ra rb re) = BitVec.ofFin re := by
  apply BitVec.eq_of_toNat_eq
  simp only [reField, BitVec.extractLsb'_toNat, toNat_formatR, Nat.shiftRight_eq_div_pow, BitVec.toNat_ofFin]
  omega

@[simp] theorem reservedZero_formatR (a b c d : Bool) : reservedZero (formatR op rd ra rb re) (.r a b c d) = true := by
  simp only [reservedZero, beq_iff_eq]
  apply BitVec.eq_of_toNat_eq
  simp only [BitVec.extractLsb'_toNat, toNat_formatR, Nat.shiftRight_eq_div_pow, BitVec.toNat_ofNat]
  omega

end FormatR

section FormatI
variable (op : BitVec 8) (rd ra : Fin 8) (imm : Imm16)

/-- A format I word as a number (30_encoding.md R52). -/
theorem toNat_formatI : (formatI op rd ra imm).toNat =
    (((op.toNat * 8 + rd) * 8 + ra) * 4) * 65536 + imm.toNat := by
  show (op ++ (BitVec.ofFin rd : BitVec 3) ++ (BitVec.ofFin ra : BitVec 3) ++ 0#2 ++ imm).toNat = _
  simp only [toNat_append_add, BitVec.toNat_ofFin]
  simp

@[simp] theorem opField_formatI : opField (formatI op rd ra imm) = op := by
  apply BitVec.eq_of_toNat_eq
  simp only [opField, BitVec.extractLsb'_toNat, toNat_formatI, Nat.shiftRight_eq_div_pow]
  have := op.isLt; have := imm.isLt; omega

@[simp] theorem rdField_formatI : rdField (formatI op rd ra imm) = BitVec.ofFin rd := by
  apply BitVec.eq_of_toNat_eq
  simp only [rdField, BitVec.extractLsb'_toNat, toNat_formatI, Nat.shiftRight_eq_div_pow, BitVec.toNat_ofFin]
  have := imm.isLt; omega

@[simp] theorem raField_formatI : raField (formatI op rd ra imm) = BitVec.ofFin ra := by
  apply BitVec.eq_of_toNat_eq
  simp only [raField, BitVec.extractLsb'_toNat, toNat_formatI, Nat.shiftRight_eq_div_pow, BitVec.toNat_ofFin]
  have := imm.isLt; omega

@[simp] theorem immField_formatI : immField (formatI op rd ra imm) = imm := by
  apply BitVec.eq_of_toNat_eq
  simp only [immField, BitVec.extractLsb'_toNat, toNat_formatI, Nat.shiftRight_eq_div_pow]
  have := imm.isLt; omega

@[simp] theorem reservedZero_formatI (a b : Bool) : reservedZero (formatI op rd ra imm) (.i a b) = true := by
  simp only [reservedZero, beq_iff_eq]
  apply BitVec.eq_of_toNat_eq
  simp only [BitVec.extractLsb'_toNat, toNat_formatI, Nat.shiftRight_eq_div_pow, BitVec.toNat_ofNat]
  have := imm.isLt; omega

end FormatI

@[simp] theorem regOf_ofFin (r : Fin 8) : regOf (BitVec.ofFin r : BitVec 3) = r := rfl

theorem ofFin_regOf (x : BitVec 3) : (BitVec.ofFin (regOf x) : BitVec 3) = x := rfl

/-- What the decoder's shared part accepts: reserved bits and unused fields zero, and the command well formed. -/
theorem accept_eq_ok_iff (cw : CommandWord) (fmt : Format) (i j : Instr) :
    accept cw fmt i = .ok j ↔ reservedZero cw fmt = true ∧ unusedZero cw fmt = true ∧ i.wf = true ∧ j = i := by
  unfold accept
  cases reservedZero cw fmt <;> cases unusedZero cw fmt <;> cases i.wf <;> simp [eq_comm]

/-- Every format R word is put together from its fields when its reserved bits are zero. -/
theorem formatR_of_fields (cw : CommandWord) (h : cw.extractLsb' 0 12 = 0#12) :
    formatR (opField cw) (rdOf cw) (raOf cw) (rbOf cw) (reOf cw) = cw := by
  apply BitVec.eq_of_toNat_eq
  have h' := congrArg BitVec.toNat h
  have e (f : BitVec 3) : ((regOf f : Fin 8) : Nat) = f.toNat := rfl
  simp only [toNat_formatR, rdOf, raOf, rbOf, reOf, e, opField, rdField, raField, rbField, reField,
    BitVec.extractLsb'_toNat, Nat.shiftRight_eq_div_pow, BitVec.toNat_ofNat] at *
  have := cw.isLt; omega

/-- Every format I word is put together from its fields when its reserved bits are zero. -/
theorem formatI_of_fields (cw : CommandWord) (h : cw.extractLsb' 16 2 = 0#2) :
    formatI (opField cw) (rdOf cw) (raOf cw) (immField cw) = cw := by
  apply BitVec.eq_of_toNat_eq
  have h' := congrArg BitVec.toNat h
  have e (f : BitVec 3) : ((regOf f : Fin 8) : Nat) = f.toNat := rfl
  simp only [toNat_formatI, rdOf, raOf, e, opField, rdField, raField, immField,
    BitVec.extractLsb'_toNat, Nat.shiftRight_eq_div_pow, BitVec.toNat_ofNat] at *
  have := cw.isLt; omega

end Sys2Proof
end

