-- ==== Sys2Proof/Laws/State.lean ====
section
/-! SUPPORT. One lemma per field per update of the registers and of the state, and reading a register after a write. -/

namespace Sys2Proof.Machine

variable {w : Nat}

/-! ### Registers -/

@[simp] theorem Regs.writeF_f (r : Regs w) (i : FReg) (v : Word w) : (r.writeF i v).f = r.f.set i v := rfl
@[simp] theorem Regs.writeF_p (r : Regs w) (i : FReg) (v : Word w) : (r.writeF i v).p = r.p := rfl
@[simp] theorem Regs.writeF_modsub (r : Regs w) (i : FReg) (v : Word w) : (r.writeF i v).modsub = r.modsub := rfl
@[simp] theorem Regs.writeF_res (r : Regs w) (i : FReg) (v : Word w) : (r.writeF i v).res = r.res := rfl
@[simp] theorem Regs.writeF_status (r : Regs w) (i : FReg) (v : Word w) : (r.writeF i v).status = r.status := rfl

@[simp] theorem Regs.writeP_f (r : Regs w) (i : PReg) (q : Seq w) : (r.writeP i q).f = r.f := rfl
@[simp] theorem Regs.writeP_p (r : Regs w) (i : PReg) (q : Seq w) : (r.writeP i q).p = r.p.set i q := rfl
@[simp] theorem Regs.writeP_modsub (r : Regs w) (i : PReg) (q : Seq w) : (r.writeP i q).modsub = r.modsub := rfl
@[simp] theorem Regs.writeP_res (r : Regs w) (i : PReg) (q : Seq w) : (r.writeP i q).res = r.res := rfl
@[simp] theorem Regs.writeP_status (r : Regs w) (i : PReg) (q : Seq w) : (r.writeP i q).status = r.status := rfl

@[simp] theorem Regs.writeModsub_f (r : Regs w) (c : Word w) : (r.writeModsub c).f = r.f := rfl
@[simp] theorem Regs.writeModsub_p (r : Regs w) (c : Word w) : (r.writeModsub c).p = r.p := rfl
@[simp] theorem Regs.writeModsub_modsub (r : Regs w) (c : Word w) : (r.writeModsub c).modsub = c := rfl
@[simp] theorem Regs.writeModsub_res (r : Regs w) (c : Word w) : (r.writeModsub c).res = r.res := rfl
@[simp] theorem Regs.writeModsub_status (r : Regs w) (c : Word w) : (r.writeModsub c).status = r.status := rfl

@[simp] theorem Regs.writeRes_f (r : Regs w) (v : BitVec 32) : (r.writeRes v).f = r.f := rfl
@[simp] theorem Regs.writeRes_p (r : Regs w) (v : BitVec 32) : (r.writeRes v).p = r.p := rfl
@[simp] theorem Regs.writeRes_modsub (r : Regs w) (v : BitVec 32) : (r.writeRes v).modsub = r.modsub := rfl
@[simp] theorem Regs.writeRes_res (r : Regs w) (v : BitVec 32) : (r.writeRes v).res = v := rfl
@[simp] theorem Regs.writeRes_status (r : Regs w) (v : BitVec 32) : (r.writeRes v).status = r.status := rfl

@[simp] theorem Regs.writeStatus_f (r : Regs w) (code : BitVec 8) : (r.writeStatus code).f = r.f := rfl
@[simp] theorem Regs.writeStatus_p (r : Regs w) (code : BitVec 8) : (r.writeStatus code).p = r.p := rfl
@[simp] theorem Regs.writeStatus_modsub (r : Regs w) (code : BitVec 8) : (r.writeStatus code).modsub = r.modsub := rfl
@[simp] theorem Regs.writeStatus_res (r : Regs w) (code : BitVec 8) : (r.writeStatus code).res = r.res := rfl
@[simp] theorem Regs.writeStatus_status (r : Regs w) (code : BitVec 8) : (r.writeStatus code).status = code := rfl

/-! ### Reading after writing -/

@[simp] theorem Regs.readF_writeF (r : Regs w) (i : FReg) (v : Word w) : (r.writeF i v).readF i = v := by
  simp [Regs.readF]

theorem Regs.readF_writeF_ne (r : Regs w) (i j : FReg) (v : Word w) (h : j ≠ i) :
    (r.writeF i v).readF j = r.readF j := by
  have hij : (i : Nat) ≠ j := fun e => h (Fin.ext e.symm)
  simpa [Regs.readF] using Vector.getElem_set_ne i.isLt j.isLt hij

@[simp] theorem Regs.readP_writeP (r : Regs w) (i : PReg) (q : Seq w) : (r.writeP i q).readP i = q := by
  simp [Regs.readP]

theorem Regs.readP_writeP_ne (r : Regs w) (i j : PReg) (q : Seq w) (h : j ≠ i) :
    (r.writeP i q).readP j = r.readP j := by
  have hij : (i : Nat) ≠ j := fun e => h (Fin.ext e.symm)
  simpa [Regs.readP] using Vector.getElem_set_ne i.isLt j.isLt hij

@[simp] theorem Regs.readP_writeF (r : Regs w) (i : FReg) (v : Word w) (j : PReg) :
    (r.writeF i v).readP j = r.readP j := rfl

@[simp] theorem Regs.readF_writeP (r : Regs w) (i : PReg) (q : Seq w) (j : FReg) :
    (r.writeP i q).readF j = r.readF j := rfl

@[simp] theorem Regs.readF_writeModsub (r : Regs w) (c : Word w) (j : FReg) : (r.writeModsub c).readF j = r.readF j := rfl
@[simp] theorem Regs.readP_writeModsub (r : Regs w) (c : Word w) (j : PReg) : (r.writeModsub c).readP j = r.readP j := rfl
@[simp] theorem Regs.readF_writeRes (r : Regs w) (v : BitVec 32) (j : FReg) : (r.writeRes v).readF j = r.readF j := rfl
@[simp] theorem Regs.readP_writeRes (r : Regs w) (v : BitVec 32) (j : PReg) : (r.writeRes v).readP j = r.readP j := rfl
@[simp] theorem Regs.readF_writeStatus (r : Regs w) (code : BitVec 8) (j : FReg) : (r.writeStatus code).readF j = r.readF j := rfl
@[simp] theorem Regs.readP_writeStatus (r : Regs w) (code : BitVec 8) (j : PReg) : (r.writeStatus code).readP j = r.readP j := rfl

/-! ### The state -/

@[simp] theorem State.complete_width (s : State) (r : Regs s.width.bits) : (s.complete r).width = s.width := rfl
@[simp] theorem State.complete_lmax (s : State) (r : Regs s.width.bits) : (s.complete r).lmax = s.lmax := rfl
@[simp] theorem State.complete_regs (s : State) (r : Regs s.width.bits) : (s.complete r).regs = r.writeStatus codeOk := rfl
@[simp] theorem State.complete_pending (s : State) (r : Regs s.width.bits) : (s.complete r).pending = s.pending := rfl
@[simp] theorem State.complete_returned (s : State) (r : Regs s.width.bits) : (s.complete r).returned = s.returned := rfl

@[simp] theorem State.raise_width (s : State) (k : Failure) : (s.raise k).width = s.width := rfl
@[simp] theorem State.raise_lmax (s : State) (k : Failure) : (s.raise k).lmax = s.lmax := rfl
@[simp] theorem State.raise_regs (s : State) (k : Failure) : (s.raise k).regs = s.regs.writeStatus (failureCode k) := rfl
@[simp] theorem State.raise_pending (s : State) (k : Failure) : (s.raise k).pending = s.pending := rfl
@[simp] theorem State.raise_returned (s : State) (k : Failure) : (s.raise k).returned = s.returned := rfl

@[simp] theorem State.respond_width (s : State) (r : Response) : (s.respond r).width = s.width := rfl
@[simp] theorem State.respond_lmax (s : State) (r : Response) : (s.respond r).lmax = s.lmax := rfl
@[simp] theorem State.respond_regs (s : State) (r : Response) : (s.respond r).regs = s.regs := rfl
@[simp] theorem State.respond_pending (s : State) (r : Response) : (s.respond r).pending = s.pending := rfl
@[simp] theorem State.respond_returned (s : State) (r : Response) : (s.respond r).returned = s.returned ++ [r] := rfl

@[simp] theorem State.offerFirst_width (s : State) (t : Transaction) : (s.offerFirst t).width = s.width := rfl
@[simp] theorem State.offerFirst_lmax (s : State) (t : Transaction) : (s.offerFirst t).lmax = s.lmax := rfl
@[simp] theorem State.offerFirst_regs (s : State) (t : Transaction) : (s.offerFirst t).regs = s.regs := rfl
@[simp] theorem State.offerFirst_pending (s : State) (t : Transaction) : (s.offerFirst t).pending = t :: s.pending := rfl
@[simp] theorem State.offerFirst_returned (s : State) (t : Transaction) : (s.offerFirst t).returned = s.returned := rfl

@[simp] theorem State.applyReset_width (s : State) : s.applyReset.width = s.width := rfl
@[simp] theorem State.applyReset_lmax (s : State) : s.applyReset.lmax = s.lmax := rfl
@[simp] theorem State.applyReset_regs (s : State) : s.applyReset.regs = resetRegs s.width := rfl
@[simp] theorem State.applyReset_pending (s : State) : s.applyReset.pending = s.pending := rfl
@[simp] theorem State.applyReset_returned (s : State) : s.applyReset.returned = s.returned := rfl

/-! ### Reset -/

@[simp] theorem State.resetOf_width (width : Config.Width) (lmax : Option Nat) : (State.resetOf width lmax).width = width := rfl
@[simp] theorem State.resetOf_lmax (width : Config.Width) (lmax : Option Nat) : (State.resetOf width lmax).lmax = lmax := rfl
@[simp] theorem State.resetOf_regs (width : Config.Width) (lmax : Option Nat) : (State.resetOf width lmax).regs = resetRegs width := rfl
@[simp] theorem State.resetOf_pending (width : Config.Width) (lmax : Option Nat) : (State.resetOf width lmax).pending = [] := rfl
@[simp] theorem State.resetOf_returned (width : Config.Width) (lmax : Option Nat) : (State.resetOf width lmax).returned = [] := rfl

@[simp] theorem readF_resetRegs (width : Config.Width) (i : FReg) : (resetRegs width).readF i = 0 := by
  simp [Regs.readF, resetRegs]

@[simp] theorem readP_resetRegs (width : Config.Width) (i : PReg) : (resetRegs width).readP i = [] := by
  simp [Regs.readP, resetRegs]

/-- Every legal width is at least 8 (00_scope.md R5). -/
theorem eight_le_bits (width : Config.Width) : 8 ≤ width.bits := by cases width <;> decide

/-- Every legal width is at most 128, the width of the port's data lines. -/
theorem bits_le_data (width : Config.Width) : width.bits ≤ 128 := by cases width <;> decide

end Sys2Proof.Machine
end

