-- ==== Sys2Proof/Laws/Ops.lean ====
section
/-! SUPPORT. What each shared operation can do, said once: how a command ends, the host port, a transaction, a step. -/

namespace Sys2Proof.Machine

theorem State.fits_unbounded {s : State} (h : s.lmax = none) (n : Nat) : s.fits n = true := by simp [State.fits, h]

theorem State.fits_iff (s : State) (n : Nat) : s.fits n = true ↔ ∀ l, s.lmax = some l → n ≤ l := by
  unfold State.fits; cases s.lmax <;> simp

theorem State.not_fits_iff (s : State) (n : Nat) : s.fits n = false ↔ ∃ l, s.lmax = some l ∧ l < n := by
  unfold State.fits; cases s.lmax <;> simp

theorem State.fits_mono {s : State} {m n : Nat} (h : s.fits n = true) (hm : m ≤ n) : s.fits m = true := by
  rw [State.fits_iff] at *; exact fun l hl => hm.trans (h l hl)

/-- A capacity-checked write either completes with the sequence in its buffer or fails with CapacityExceeded. -/
theorem State.store_cases (s : State) (i : PReg) (q : Seq s.width.bits) :
    (s.fits q.length = true ∧ s.store i q = s.complete (s.regs.writeP i q)) ∨
    (s.fits q.length = false ∧ s.store i q = s.raise .capacityExceeded) := by
  unfold State.store; cases h : s.fits q.length <;> simp

/-- A failing command differs from the state before it in STATUS only. -/
theorem State.raise_eq (s : State) (k : Failure) :
    s.raise k = { s with regs := { s.regs with status := failureCode k } } := rfl

/-- A completing command has the results given and STATUS OK. -/
theorem State.complete_eq (s : State) (r : Regs s.width.bits) :
    s.complete r = { s with regs := { r with status := 0#8 } } := rfl

/-- A port write is a write of one word register, a length write, a write of one stored word, or nothing. -/
theorem State.portWrite_cases (s : State) (sel : BitVec 8) (k : Nat) (v : PortData) :
    (∃ i, portTarget sel = .word i ∧
      s.portWrite sel k v = { s with regs := s.regs.writeF i (v.setWidth s.width.bits) }) ∨
    (∃ i, portTarget sel = .length i ∧ s.portWrite sel k v = s.writeLength i (v.setWidth 32).toNat) ∨
    (∃ i, portTarget sel = .bufferWord i ∧
      s.portWrite sel k v = { s with regs := s.regs.writeP i ((s.regs.readP i).set k (v.setWidth s.width.bits)) }) ∨
    (portTarget sel ∈ [PortTarget.modsub, .status, .res, .reserved] ∧ s.portWrite sel k v = s) := by
  unfold State.portWrite; split <;> simp_all

/-- A length write resizes the buffer when the length fits, else does nothing. -/
theorem State.writeLength_cases (s : State) (i : PReg) (n : Nat) :
    (s.fits n = true ∧
      s.writeLength i n = { s with regs := s.regs.writeP i (resize (s.regs.readP i) n) }) ∨
    (s.fits n = false ∧ s.writeLength i n = s) := by
  unfold State.writeLength; cases h : s.fits n <;> simp

@[simp] theorem length_resize {w : Nat} (q : Seq w) (n : Nat) : (resize q n).length = n := by
  simp [resize]; omega

/-- A resized buffer keeps its words below both lengths and has zero words above its old length. -/
theorem getD_resize {w : Nat} (q : Seq w) (n k : Nat) :
    (resize q n).getD k 0#w = if k < n then q.getD k 0#w else 0#w := by
  by_cases hk : k < n
  · by_cases hq : k < q.length
    · have : k < min n q.length := by omega
      simp [resize, hk, hq, this, List.getElem?_append]
    · have h1 : ¬ k < min n q.length := by omega
      have h2 : q[k]? = none := by simp; omega
      simp only [resize, List.getD_eq_getElem?_getD, List.getElem?_append, List.length_take, h1, if_false, hk, if_true,
        List.getElem?_replicate, h2]
      split <;> rfl
  · simp [hk]

/-- Issuing a word: an illegal one writes STATUS 3 and nothing else; a command runs; the new STATUS is handed back. -/
theorem State.issue_cases (s : State) (cw : CommandWord) :
    (∃ e, decode cw = .error e ∧
      s.issue cw = .next ((s.raise .illegalCommand).respond (.outcome 3#8))) ∨
    (∃ i, decode cw = .ok i ∧
      ((∃ t, exec i s = .next t ∧ s.issue cw = .next (t.respond (.outcome t.regs.status))) ∨
       (∃ r, exec i s = .fault r ∧ s.issue cw = .fault r) ∨
       (∃ r, exec i s = .refused r ∧ s.issue cw = .refused r))) := by
  unfold State.issue
  cases hd : decode cw with
  | error e => exact .inl ⟨e, rfl, rfl⟩
  | ok i => right; refine ⟨i, rfl, ?_⟩; cases he : exec i s <;> simp [he]

/-- A step with nothing pending keeps the state. -/
theorem step_idle {s : State} (h : s.pending = []) : step s = .next s := by
  simp [step, State.nextTransaction, h]

/-- A step with a transaction pending performs it on the state without it. -/
theorem step_pending {s : State} {t : Transaction} {rest : List Transaction} (h : s.pending = t :: rest) :
    step s = State.perform { s with pending := rest } t := by
  simp [step, State.nextTransaction, h]

/-- The word put first by `withFetchWord` is the one the next step issues. -/
theorem step_withFetchWord (s : State) (nbits n : Nat) :
    step (s.withFetchWord nbits n) = s.issue (tableWord nbits n) :=
  step_pending (s := s.withFetchWord nbits n) rfl

end Sys2Proof.Machine
end

