-- ==== Sys2Proof/Laws/PerInstr.lean ====
section
/-! SUPPORT. Family `EncodesRow`: the encoder's word of every command has the match of the command's opcode-table row
under the row's mask. -/

namespace Sys2Proof.Laws

/-- A format R word under a mask, field by field. -/
theorem formatR_and (op mop : BitVec 8) (rd ra rb re : Fin 8) (md ma mb me : BitVec 3) (m0 : BitVec 12) :
    formatR op rd ra rb re &&& (mop ++ md ++ ma ++ mb ++ me ++ m0) =
      (op &&& mop) ++ (BitVec.ofFin rd &&& md) ++ (BitVec.ofFin ra &&& ma) ++ (BitVec.ofFin rb &&& mb) ++
        (BitVec.ofFin re &&& me) ++ 0#12 := by
  show ((op ++ (BitVec.ofFin rd : BitVec 3) ++ (BitVec.ofFin ra : BitVec 3) ++ (BitVec.ofFin rb : BitVec 3) ++
    (BitVec.ofFin re : BitVec 3) ++ 0#12 : BitVec (8 + 3 + 3 + 3 + 3 + 12)) &&& _ : BitVec (8 + 3 + 3 + 3 + 3 + 12)) = _
  simp only [BitVec.and_append, BitVec.zero_and]

/-- A format I word under a mask, field by field. -/
theorem formatI_and (op mop : BitVec 8) (rd ra : Fin 8) (imm : Imm16) (md ma : BitVec 3) (m0 : BitVec 2) (mi : Imm16) :
    formatI op rd ra imm &&& (mop ++ md ++ ma ++ m0 ++ mi) =
      (op &&& mop) ++ (BitVec.ofFin rd &&& md) ++ (BitVec.ofFin ra &&& ma) ++ 0#2 ++ (imm &&& mi) := by
  show ((op ++ (BitVec.ofFin rd : BitVec 3) ++ (BitVec.ofFin ra : BitVec 3) ++ 0#2 ++ imm :
    BitVec (8 + 3 + 3 + 2 + 16)) &&& _ : BitVec (8 + 3 + 3 + 2 + 16)) = _
  simp only [BitVec.and_append, BitVec.zero_and]

/-- The encoder's word is of its command's row: the bits of the mask are those of the match (30_encoding.md R55). -/
def EncodesRow.Statement (i : Instr) : Prop := encode i &&& (tableRow i).2 = (tableRow i).1

theorem EncodesRow.setmod (ra : FReg) : EncodesRow.Statement (.setmod ra) :=
  (formatR_and 0x01#8 0xFF#8 0 ra 0 0 7#3 0#3 7#3 7#3 0xfff#12).trans (by simp [tableRow])

theorem EncodesRow.defmod : EncodesRow.Statement .defmod :=
  (formatR_and 0x02#8 0xFF#8 0 0 0 0 7#3 7#3 7#3 7#3 0xfff#12).trans (by simp [tableRow])

theorem EncodesRow.fzero (rd : FReg) : EncodesRow.Statement (.fzero rd) :=
  (formatR_and 0x10#8 0xFF#8 rd 0 0 0 0#3 7#3 7#3 7#3 0xfff#12).trans (by simp [tableRow])

theorem EncodesRow.fone (rd : FReg) : EncodesRow.Statement (.fone rd) :=
  (formatR_and 0x11#8 0xFF#8 rd 0 0 0 0#3 7#3 7#3 7#3 0xfff#12).trans (by simp [tableRow])

theorem EncodesRow.fadd (rd ra rb : FReg) : EncodesRow.Statement (.fadd rd ra rb) :=
  (formatR_and 0x12#8 0xFF#8 rd ra rb 0 0#3 0#3 0#3 7#3 0xfff#12).trans (by simp [tableRow])

theorem EncodesRow.fmul (rd ra rb : FReg) : EncodesRow.Statement (.fmul rd ra rb) :=
  (formatR_and 0x13#8 0xFF#8 rd ra rb 0 0#3 0#3 0#3 7#3 0xfff#12).trans (by simp [tableRow])

theorem EncodesRow.fneg (rd ra : FReg) : EncodesRow.Statement (.fneg rd ra) :=
  (formatR_and 0x14#8 0xFF#8 rd ra 0 0 0#3 0#3 7#3 7#3 0xfff#12).trans (by simp [tableRow])

theorem EncodesRow.finv (rd ra : FReg) : EncodesRow.Statement (.finv rd ra) :=
  (formatR_and 0x15#8 0xFF#8 rd ra 0 0 0#3 0#3 7#3 7#3 0xfff#12).trans (by simp [tableRow])

theorem EncodesRow.fginv (rd ra : FReg) : EncodesRow.Statement (.fginv rd ra) :=
  (formatR_and 0x16#8 0xFF#8 rd ra 0 0 0#3 0#3 7#3 7#3 0xfff#12).trans (by simp [tableRow])

theorem EncodesRow.fexp (rd ra rb : FReg) : EncodesRow.Statement (.fexp rd ra rb) :=
  (formatR_and 0x17#8 0xFF#8 rd ra rb 0 0#3 0#3 0#3 7#3 0xfff#12).trans (by simp [tableRow])

theorem EncodesRow.fdeg (ra : FReg) : EncodesRow.Statement (.fdeg ra) :=
  (formatR_and 0x18#8 0xFF#8 0 ra 0 0 7#3 0#3 7#3 7#3 0xfff#12).trans (by simp [tableRow])

theorem EncodesRow.fbit (ra : FReg) (imm : Imm16) : EncodesRow.Statement (.fbit ra imm) :=
  (formatI_and 0x19#8 0xFF#8 0 ra imm 7#3 0#3 3#2 0x0#16).trans (by simp [tableRow])

theorem EncodesRow.fdiv (rd re ra rb : FReg) : EncodesRow.Statement (.fdiv rd re ra rb) :=
  (formatR_and 0x1A#8 0xFF#8 rd ra rb re 0#3 0#3 0#3 0#3 0xfff#12).trans (by simp [tableRow])

theorem EncodesRow.fmdiv (rd re ra : FReg) : EncodesRow.Statement (.fmdiv rd re ra) :=
  (formatR_and 0x1B#8 0xFF#8 rd ra 0 re 0#3 0#3 7#3 0#3 0xfff#12).trans (by simp [tableRow])

theorem EncodesRow.pzero (rd : PReg) : EncodesRow.Statement (.pzero rd) :=
  (formatR_and 0x20#8 0xFF#8 rd 0 0 0 0#3 7#3 7#3 7#3 0xfff#12).trans (by simp [tableRow])

theorem EncodesRow.pone (rd : PReg) : EncodesRow.Statement (.pone rd) :=
  (formatR_and 0x21#8 0xFF#8 rd 0 0 0 0#3 7#3 7#3 7#3 0xfff#12).trans (by simp [tableRow])

theorem EncodesRow.padd (rd ra rb : PReg) : EncodesRow.Statement (.padd rd ra rb) :=
  (formatR_and 0x22#8 0xFF#8 rd ra rb 0 0#3 0#3 0#3 7#3 0xfff#12).trans (by simp [tableRow])

theorem EncodesRow.pmul (rd ra rb : PReg) : EncodesRow.Statement (.pmul rd ra rb) :=
  (formatR_and 0x23#8 0xFF#8 rd ra rb 0 0#3 0#3 0#3 7#3 0xfff#12).trans (by simp [tableRow])

theorem EncodesRow.pneg (rd ra : PReg) : EncodesRow.Statement (.pneg rd ra) :=
  (formatR_and 0x24#8 0xFF#8 rd ra 0 0 0#3 0#3 7#3 7#3 0xfff#12).trans (by simp [tableRow])

theorem EncodesRow.pdiv (rd re ra rb : PReg) : EncodesRow.Statement (.pdiv rd re ra rb) :=
  (formatR_and 0x25#8 0xFF#8 rd ra rb re 0#3 0#3 0#3 0#3 0xfff#12).trans (by simp [tableRow])

theorem EncodesRow.pshl1 (rd : PReg) : EncodesRow.Statement (.pshl1 rd) :=
  (formatR_and 0x26#8 0xFF#8 rd 0 0 0 0#3 7#3 7#3 7#3 0xfff#12).trans (by simp [tableRow])

theorem EncodesRow.pshl (rd : PReg) (imm : Imm16) : EncodesRow.Statement (.pshl rd imm) :=
  (formatI_and 0x27#8 0xFF#8 rd 0 imm 0#3 7#3 3#2 0x0#16).trans (by simp [tableRow])

theorem EncodesRow.pshr1 (rd : PReg) : EncodesRow.Statement (.pshr1 rd) :=
  (formatR_and 0x28#8 0xFF#8 rd 0 0 0 0#3 7#3 7#3 7#3 0xfff#12).trans (by simp [tableRow])

theorem EncodesRow.paddi (rd ra : PReg) : EncodesRow.Statement (.paddi rd ra) :=
  (formatR_and 0x29#8 0xFF#8 rd ra 0 0 0#3 0#3 7#3 7#3 0xfff#12).trans (by simp [tableRow])

theorem EncodesRow.pclean (rd : PReg) : EncodesRow.Statement (.pclean rd) :=
  (formatR_and 0x2A#8 0xFF#8 rd 0 0 0 0#3 7#3 7#3 7#3 0xfff#12).trans (by simp [tableRow])

theorem EncodesRow.pdeg (ra : PReg) : EncodesRow.Statement (.pdeg ra) :=
  (formatR_and 0x2B#8 0xFF#8 0 ra 0 0 7#3 0#3 7#3 7#3 0xfff#12).trans (by simp [tableRow])

theorem EncodesRow.pbit (ra : PReg) (imm : Imm16) : EncodesRow.Statement (.pbit ra imm) :=
  (formatI_and 0x2C#8 0xFF#8 0 ra imm 7#3 0#3 3#2 0x0#16).trans (by simp [tableRow])

end Sys2Proof.Laws
end

