-- ==== Sys2Proof/Laws/Sequence.lean ====
section
/-! SUPPORT. The sequence functions of the ring commands, said once each: the words of their results, the lengths, and
the values. Values are compared bit by bit: bit `i` of `val q` is bit `i mod W` of word `i div W`. -/

namespace Sys2Proof.Machine

variable {w : Nat}

/-! ### Values -/

@[simp] theorem val_nil : val ([] : Seq w) = 0 := rfl

theorem val_cons (x : Word w) (q : Seq w) : val (x :: q) = x.toNat + 2 ^ w * val q := rfl

/-- Bit `i` of the value of a sequence is what `bit_at` reads (00_scope.md R6, 41_polyring.md R91). -/
theorem testBit_val (hw : 0 < w) (q : Seq w) (i : Nat) : (val q).testBit i = bitAt q i := by
  unfold bitAt
  induction q generalizing i with
  | nil => simp
  | cons x q ih =>
    rw [val_cons, Nat.add_comm, Nat.testBit_two_pow_mul_add _ x.isLt]
    by_cases h : i < w
    · simp [h, Nat.div_eq_of_lt h, Nat.mod_eq_of_lt h, BitVec.getLsbD]
    · have h1 : i / w = (i - w) / w + 1 := by
        rw [← Nat.sub_add_cancel (Nat.le_of_not_lt h), Nat.add_div_right _ hw, Nat.add_sub_cancel]
      have h2 : i % w = (i - w) % w := by rw [Nat.mod_eq_sub_mod (Nat.le_of_not_lt h)]
      simp [h, ih, h1, h2]

/-- Two sequences with the same words, missing words read as zero, have the same value. -/
theorem val_congr (hw : 0 < w) {q r : Seq w} (h : ∀ k, q.getD k 0#w = r.getD k 0#w) : val q = val r := by
  apply Nat.eq_of_testBit_eq
  intro i
  rw [testBit_val hw, testBit_val hw, bitAt, bitAt, h]

/-! ### In-place XOR -/

@[simp] theorem addInPlace_nil (q : Seq w) : addInPlace q [] = q := by cases q <;> rfl

@[simp] theorem nil_addInPlace (q : Seq w) : addInPlace [] q = q := by cases q <;> rfl

@[simp] theorem length_addInPlace (q r : Seq w) : (addInPlace q r).length = max q.length r.length := by
  induction q generalizing r with
  | nil => simp
  | cons x q ih => cases r with
    | nil => simp
    | cons y r => simp [addInPlace, ih]

/-- Word `k` of the in-place XOR (41_polyring.md R88). -/
theorem getD_addInPlace (q r : Seq w) (k : Nat) :
    (addInPlace q r).getD k 0#w = q.getD k 0#w ^^^ r.getD k 0#w := by
  induction q generalizing r k with
  | nil => simp
  | cons x q ih => cases r with
    | nil => simp
    | cons y r => cases k with
      | zero => simp [addInPlace]
      | succ k => simpa [addInPlace] using ih r k

theorem val_addInPlace (hw : 0 < w) (q r : Seq w) : val (addInPlace q r) = val q ^^^ val r := by
  apply Nat.eq_of_testBit_eq
  intro i
  rw [Nat.testBit_xor, testBit_val hw, testBit_val hw, testBit_val hw, bitAt, getD_addInPlace, BitVec.getLsbD_xor]
  rfl

/-! ### Shifts -/

/-- Word `k` of the shift left by one with an incoming bit (41_polyring.md R85). -/
theorem getD_shiftLeftIn (c : Bool) (q : Seq w) (k : Nat) :
    (shiftLeftIn c q).getD k 0#w = (q.getD k 0#w <<< 1) |||
      (BitVec.ofBool (if k = 0 then c else (q.getD (k - 1) 0#w).msb)).setWidth w := by
  have o : (BitVec.ofBool true).setWidth w = 1#w := by apply BitVec.eq_of_toNat_eq; simp
  induction q generalizing c k with
  | nil =>
    cases c
    · cases k <;> simp [shiftLeftIn]
    · cases k
      · simpa [shiftLeftIn] using o.symm
      · simp [shiftLeftIn]
  | cons x q ih => cases k with
    | zero => simp [shiftLeftIn]
    | succ k =>
      have := ih x.msb k
      cases k <;> simpa [shiftLeftIn] using this

/-- The length grows by one exactly when a bit leaves the top word (41_polyring.md R85). -/
theorem length_shiftLeftIn (c : Bool) (q : Seq w) :
    (shiftLeftIn c q).length = q.length + (if (q.getLast?.map BitVec.msb).getD c then 1 else 0) := by
  induction q generalizing c with
  | nil => cases c <;> rfl
  | cons x q ih => cases q with
    | nil => cases h : x.msb <;> simp [shiftLeftIn, h]
    | cons y q =>
      have := ih x.msb
      simp only [shiftLeftIn, List.length_cons, List.getLast?_cons_cons] at this ⊢
      cases h : (y :: q).getLast? with
      | none => simp at h
      | some z => simp only [h, Option.map_some, Option.getD_some] at this ⊢; omega

/-- Word `k` of the shift right by one (41_polyring.md R87). -/
theorem getD_shiftRight (q : Seq w) (k : Nat) :
    (shiftRight q).getD k 0#w = (q.getD k 0#w >>> 1) |||
      if (q.getD (k + 1) 0#w).getLsbD 0 then BitVec.twoPow w (w - 1) else 0#w := by
  induction q generalizing k with
  | nil => simp [shiftRight]
  | cons x q ih => cases k with
    | zero => cases q <;> simp [shiftRight]
    | succ k => simpa [shiftRight] using ih k

@[simp] theorem length_shiftRight (q : Seq w) : (shiftRight q).length = q.length := by
  induction q <;> simp_all [shiftRight]

/-- Word `k` of the shift by the residual bits (41_polyring.md R86). -/
theorem getD_shiftResidual (r : Nat) (below : Word w) (q : Seq w) (k : Nat) :
    (shiftResidual r below q).getD k 0#w =
      (q.getD k 0#w <<< r) ||| ((if k = 0 then below else q.getD (k - 1) 0#w) >>> (w - r)) := by
  induction q generalizing below k with
  | nil =>
    by_cases h : below >>> (w - r) = 0#w <;> cases k <;> simp [shiftResidual, h]
  | cons x q ih => cases k with
    | zero => simp [shiftResidual]
    | succ k =>
      have := ih x k
      cases k <;> simpa [shiftResidual] using this

/-- The length grows by one exactly when the upper `r` bits of the top word are not all zero (41_polyring.md R86). -/
theorem length_shiftResidual (r : Nat) (below : Word w) (q : Seq w) :
    (shiftResidual r below q).length =
      q.length + (if (q.getLast?.getD below) >>> (w - r) = 0#w then 0 else 1) := by
  induction q generalizing below with
  | nil => by_cases h : below >>> (w - r) = 0#w <;> simp [shiftResidual, h]
  | cons x q ih => cases q with
    | nil => by_cases h : x >>> (w - r) = 0#w <;> simp [shiftResidual, h]
    | cons y q =>
      have := ih x
      simp only [shiftResidual, List.length_cons, List.getLast?_cons_cons] at this ⊢
      cases h : (y :: q).getLast? with
      | none => simp at h
      | some z => simp only [h, Option.getD_some] at this ⊢; omega

/-- Where bit `i - 1` stands, when bit `i` stands at bit `m` of word `k`. -/
theorem pred_div_mod (hw : 0 < w) (i : Nat) (hi : 0 < i) :
    (i % w ≠ 0 → (i - 1) / w = i / w ∧ (i - 1) % w = i % w - 1) ∧
    (i % w = 0 → i / w ≠ 0 ∧ (i - 1) / w = i / w - 1 ∧ (i - 1) % w = w - 1) := by
  have e := Nat.div_add_mod i w
  have hm := Nat.mod_lt i hw
  generalize i % w = m at *
  generalize i / w = k at *
  constructor
  · intro h
    have : i - 1 = (m - 1) + w * k := by omega
    rw [this, Nat.add_mul_div_left _ _ hw, Nat.add_mul_mod_self_left, Nat.div_eq_of_lt (by omega),
      Nat.mod_eq_of_lt (by omega)]
    simp
  · intro h
    cases k with
    | zero => simp at e; omega
    | succ k =>
      have : i - 1 = (w - 1) + w * k := by rw [Nat.mul_succ] at e; omega
      rw [this, Nat.add_mul_div_left _ _ hw, Nat.add_mul_mod_self_left, Nat.div_eq_of_lt (by omega),
        Nat.mod_eq_of_lt (by omega)]
      simp

/-- `shift_left` multiplies the value by x (41_polyring.md R85). -/
theorem val_shiftLeft (hw : 0 < w) (q : Seq w) : val (shiftLeft q) = val q <<< 1 := by
  apply Nat.eq_of_testBit_eq
  intro i
  have hm := Nat.mod_lt i hw
  rw [testBit_val hw, Nat.testBit_shiftLeft, testBit_val hw, bitAt, bitAt, shiftLeft, getD_shiftLeftIn]
  rcases Nat.eq_zero_or_pos i with rfl | hi
  · simp
  · obtain ⟨hne, he⟩ := pred_div_mod hw i hi
    by_cases h : i % w = 0
    · obtain ⟨h0, h1, h2⟩ := he h
      simp [h, h0, h1, h2, hw, BitVec.msb_eq_getLsbD_last, Nat.one_le_iff_ne_zero, hi.ne']
    · obtain ⟨h1, h2⟩ := hne h
      simp [h, h1, h2, hm, Nat.one_le_iff_ne_zero, hi.ne', BitVec.getLsbD_eq_getElem (show i % w - 1 < w by omega)]

theorem getLsbD_topBit (hw : 0 < w) (b : Bool) (j : Nat) :
    (if b then BitVec.twoPow w (w - 1) else 0#w).getLsbD j = (b && decide (j = w - 1)) := by
  cases b
  · simp
  · simp only [if_true, BitVec.getLsbD_twoPow, Bool.true_and]
    by_cases h : j = w - 1 <;> simp [h, hw]; omega

/-- `shift_right` divides the value by x and drops the constant term (41_polyring.md R87). -/
theorem val_shiftRight (hw : 0 < w) (q : Seq w) : val (shiftRight q) = val q >>> 1 := by
  apply Nat.eq_of_testBit_eq
  intro i
  have hm := Nat.mod_lt i hw
  rw [testBit_val hw, Nat.testBit_shiftRight, testBit_val hw, bitAt, bitAt, getD_shiftRight]
  have hm' := Nat.mod_lt (i + 1) hw
  obtain ⟨hne, he⟩ := pred_div_mod hw (i + 1) (by omega)
  rw [Nat.add_comm 1 i, Nat.add_sub_cancel] at *
  generalize (i + 1) % w = m' at *
  generalize (i + 1) / w = k' at *
  generalize i % w = m at *
  generalize i / w = k at *
  rw [BitVec.getLsbD_or, BitVec.getLsbD_ushiftRight, getLsbD_topBit hw]
  by_cases h : m' = 0
  · obtain ⟨h0, rfl, rfl⟩ := he h
    obtain ⟨k, rfl⟩ := Nat.exists_eq_succ_of_ne_zero h0
    have h4 : 1 + (w - 1) = w := by omega
    rw [h, h4, BitVec.getLsbD_of_ge _ _ (le_refl w)]
    simp
  · obtain ⟨rfl, rfl⟩ := hne h
    have h3 : 1 + (m' - 1) = m' := by omega
    have h4 : m' - 1 ≠ w - 1 := by omega
    rw [h3, decide_eq_false h4]
    simp

/-- Zero words below a sequence multiply its value by a power of x^W. -/
theorem val_replicate_append (n : Nat) (q : Seq w) : val (List.replicate n 0#w ++ q) = val q <<< (w * n) := by
  rw [Nat.shiftLeft_eq]
  induction n with
  | zero => simp
  | succ n ih =>
    rw [List.replicate_succ, List.cons_append, val_cons, ih, Nat.mul_succ, Nat.pow_add]
    simp; ring

/-- The value of the shift by the residual bits: the sequence shifted, and below it the bits that came in
(41_polyring.md R86). -/
theorem val_shiftResidual {r : Nat} (hr : r ≤ w) (below : Word w) (q : Seq w) :
    val (shiftResidual r below q) = (below >>> (w - r)).toNat + val q * 2 ^ r := by
  induction q generalizing below with
  | nil => by_cases h : below >>> (w - r) = 0#w <;> simp [shiftResidual, h, val_cons]
  | cons x q ih =>
    have hb : (below >>> (w - r)).toNat < 2 ^ r := by
      rw [BitVec.toNat_ushiftRight, Nat.shiftRight_eq_div_pow]
      apply Nat.div_lt_of_lt_mul
      rw [← Nat.pow_add, Nat.sub_add_cancel hr]
      exact below.isLt
    have hw : 2 ^ w = 2 ^ r * 2 ^ (w - r) := by rw [← Nat.pow_add, Nat.add_sub_cancel' hr]
    have hx : ((x <<< r) ||| (below >>> (w - r))).toNat =
        2 ^ r * (x.toNat % 2 ^ (w - r)) + (below >>> (w - r)).toNat := by
      rw [BitVec.toNat_or, BitVec.toNat_shiftLeft, Nat.two_pow_add_eq_or_of_lt hb, Nat.shiftLeft_eq, hw,
        Nat.mul_comm x.toNat, Nat.mul_mod_mul_left]
    have hs : (x >>> (w - r)).toNat = x.toNat / 2 ^ (w - r) := by
      rw [BitVec.toNat_ushiftRight, Nat.shiftRight_eq_div_pow]
    have hd := Nat.div_add_mod x.toNat (2 ^ (w - r))
    rw [shiftResidual, val_cons, val_cons, ih, hx, hs, hw]
    generalize x.toNat / 2 ^ (w - r) = u at *
    generalize x.toNat % 2 ^ (w - r) = v at *
    rw [← hd]; ring

/-- `shift_left_by_bits` multiplies the value by x^n (41_polyring.md R86). -/
theorem val_shiftLeftByBits (hw : 0 < w) (q : Seq w) (n : Nat) : val (shiftLeftByBits q n) = val q <<< n := by
  have e := Nat.div_add_mod n w
  unfold shiftLeftByBits
  split
  · rename_i h
    rw [h, Nat.add_zero] at e
    rw [val_replicate_append, e]
  · rw [val_replicate_append, val_shiftResidual (Nat.mod_lt n hw).le]
    simp only [BitVec.zero_ushiftRight, BitVec.toNat_zero, Nat.zero_add, Nat.shiftLeft_eq]
    rw [Nat.mul_assoc, ← Nat.pow_add, Nat.add_comm (n % w), e]

/-! ### Canonical form -/

/-- Canonicalizing a sequence takes zero words off its top and nothing else (41_polyring.md R89). -/
theorem cleanUp_append_zeros (q : Seq w) : ∃ n, q = cleanUp q ++ List.replicate n 0#w := by
  refine ⟨(q.rtakeWhile (· == 0#w)).length, ?_⟩
  conv => lhs; rw [← List.rdropWhile_append_rtakeWhile (p := (· == 0#w)) (l := q)]
  exact congrArg _ (List.eq_replicate_of_mem fun x hx => by simpa using List.mem_rtakeWhile_imp hx)

/-- Canonicalizing keeps every word, missing words read as zero (41_polyring.md R89). -/
theorem getD_cleanUp (q : Seq w) (k : Nat) : (cleanUp q).getD k 0#w = q.getD k 0#w := by
  obtain ⟨n, hn⟩ := cleanUp_append_zeros q
  conv => rhs; rw [hn]
  simp only [List.getD_eq_getElem?_getD, List.getElem?_append, List.getElem?_replicate]
  split
  · rfl
  · rename_i h
    rw [List.getElem?_eq_none (by omega)]
    split <;> rfl

/-- Canonicalizing keeps the value (41_polyring.md R89). -/
theorem val_cleanUp (hw : 0 < w) (q : Seq w) : val (cleanUp q) = val q := val_congr hw (getD_cleanUp q)

/-- The top word of a canonicalized sequence is not zero (10_state.md R16). -/
theorem getLast?_cleanUp (q : Seq w) : (cleanUp q).getLast? ≠ some 0#w := by
  intro h
  have hne : cleanUp q ≠ [] := fun e => by simp [e] at h
  have := List.rdropWhile_last_not (· == 0#w) q hne
  rw [List.getLast?_eq_some_getLast hne] at h
  exact this (by simpa [cleanUp] using h)

end Sys2Proof.Machine
end

