-- ==== Sys2Proof/Machine/Assembler.lean ====
section
/-! DEFINITION. The assembler text of a command and its translation (spec/30_encoding.md R60, R61). Text is a list of
characters; what R60 does not say of blanks is log 19. -/

namespace Sys2Proof.Machine

/-- Spaces and tabs between the parts of a line (log 19). -/
def isBlank (c : Char) : Bool := c == ' ' || c == '\t'

/-- The text without blanks at its two ends. -/
def trimBlanks (t : List Char) : List Char := (t.dropWhile isBlank).rdropWhile isBlank

/-- A comment starts with `;` (30_encoding.md R60). -/
def withoutComment (t : List Char) : List Char := t.takeWhile (· != ';')

/-- The parts of a text between commas; the empty text has none. -/
def splitCommas : List Char → List (List Char)
  | [] => []
  | c :: cs =>
    if c = ',' then [] :: (if cs.isEmpty then [[]] else splitCommas cs)
    else
      match splitCommas cs with
      | [] => [[c]]
      | part :: parts => (c :: part) :: parts

/-- The value of a digit of either base, `none` for another character. -/
def digitValue (c : Char) : Option Nat :=
  if '0' ≤ c ∧ c ≤ '9' then some (c.toNat - '0'.toNat)
  else if 'a' ≤ c ∧ c ≤ 'f' then some (c.toNat - 'a'.toNat + 10)
  else if 'A' ≤ c ∧ c ≤ 'F' then some (c.toNat - 'A'.toNat + 10)
  else none

/-- The number the digits spell in a base, after a value already read. -/
def digitsValue (base acc : Nat) : List Char → Option Nat
  | [] => some acc
  | c :: cs =>
    match digitValue c with
    | some d => if d < base then digitsValue base (acc * base + d) cs else none
    | none => none

/-- A register name f0 to f7 or p0 to p7, `kind` the letter (30_encoding.md R60). -/
def parseReg (kind : Char) : List Char → Option (Fin 8)
  | [k, d] =>
    if k = kind then
      match digitValue d with
      | some n => if h : n < 8 then some ⟨n, h⟩ else none
      | none => none
    else none
  | _ => none

/-- An immediate, decimal or hexadecimal with `0x` before it, 0 to 65535 (30_encoding.md R60). -/
def parseImm (t : List Char) : Option Imm16 :=
  let n :=
    match t with
    | '0' :: 'x' :: c :: cs => digitsValue 16 0 (c :: cs)
    | [] => none
    | t => digitsValue 10 0 t
  match n with
  | some n => if n < 65536 then some (BitVec.ofNat 16 n) else none
  | none => none

/-- The operand lists of 30_encoding.md R60: which parser each mnemonic's operands go through and the command they make.
The pseudo-commands of R61 stand beside the commands they expand to. -/
def assembleParts (mnemonic : List Char) (args : List (List Char)) : Option Instr :=
  let f := parseReg 'f'
  let p := parseReg 'p'
  match mnemonic, args with
  | ['S', 'E', 'T', 'M', 'O', 'D'], [a] => return .setmod (← f a)
  | ['D', 'E', 'F', 'M', 'O', 'D'], [] => some .defmod
  | ['F', 'Z', 'E', 'R', 'O'], [d] => return .fzero (← f d)
  | ['F', 'O', 'N', 'E'], [d] => return .fone (← f d)
  | ['F', 'A', 'D', 'D'], [d, a, b] => return .fadd (← f d) (← f a) (← f b)
  | ['F', 'S', 'U', 'B'], [d, a, b] => return .fadd (← f d) (← f a) (← f b)
  | ['F', 'M', 'U', 'L'], [d, a, b] => return .fmul (← f d) (← f a) (← f b)
  | ['F', 'S', 'Q', 'R'], [d, a] => return .fmul (← f d) (← f a) (← f a)
  | ['F', 'N', 'E', 'G'], [d, a] => return .fneg (← f d) (← f a)
  | ['F', 'M', 'O', 'V'], [d, a] => return .fneg (← f d) (← f a)
  | ['F', 'I', 'N', 'V'], [d, a] => return .finv (← f d) (← f a)
  | ['F', 'G', 'I', 'N', 'V'], [d, a] => return .fginv (← f d) (← f a)
  | ['F', 'E', 'X', 'P'], [d, a, b] => return .fexp (← f d) (← f a) (← f b)
  | ['F', 'D', 'E', 'G'], [a] => return .fdeg (← f a)
  | ['F', 'B', 'I', 'T'], [a, n] => return .fbit (← f a) (← parseImm n)
  | ['F', 'D', 'I', 'V'], [q, r, a, b] => return .fdiv (← f q) (← f r) (← f a) (← f b)
  | ['F', 'M', 'D', 'I', 'V'], [q, r, a] => return .fmdiv (← f q) (← f r) (← f a)
  | ['P', 'Z', 'E', 'R', 'O'], [d] => return .pzero (← p d)
  | ['P', 'O', 'N', 'E'], [d] => return .pone (← p d)
  | ['P', 'A', 'D', 'D'], [d, a, b] => return .padd (← p d) (← p a) (← p b)
  | ['P', 'S', 'U', 'B'], [d, a, b] => return .padd (← p d) (← p a) (← p b)
  | ['P', 'M', 'U', 'L'], [d, a, b] => return .pmul (← p d) (← p a) (← p b)
  | ['P', 'N', 'E', 'G'], [d, a] => return .pneg (← p d) (← p a)
  | ['P', 'M', 'O', 'V'], [d, a] => return .pneg (← p d) (← p a)
  | ['P', 'D', 'I', 'V'], [q, r, a, b] => return .pdiv (← p q) (← p r) (← p a) (← p b)
  | ['P', 'S', 'H', 'L', '1'], [d] => return .pshl1 (← p d)
  | ['P', 'S', 'H', 'L'], [d, n] => return .pshl (← p d) (← parseImm n)
  | ['P', 'S', 'H', 'R', '1'], [d] => return .pshr1 (← p d)
  | ['P', 'A', 'D', 'D', 'I'], [d, a] => return .paddi (← p d) (← p a)
  | ['P', 'C', 'L', 'E', 'A', 'N'], [d] => return .pclean (← p d)
  | ['P', 'D', 'E', 'G'], [a] => return .pdeg (← p a)
  | ['P', 'B', 'I', 'T'], [a, n] => return .pbit (← p a) (← parseImm n)
  | _, _ => none

/-- The command a line of assembler text stands for: the mnemonic in capitals, then the operands between commas, in the
order destinations, sources, immediate (30_encoding.md R60). -/
def assembleLine (line : List Char) : Option Instr :=
  let t := trimBlanks (withoutComment line)
  assembleParts (t.takeWhile fun c => !isBlank c)
    ((splitCommas (trimBlanks (t.dropWhile fun c => !isBlank c))).map trimBlanks)

end Sys2Proof.Machine
end

