-- ==== Sys2Proof/Tests/Slice0.lean ====
section
/-! SUPPORT. Tests. Expected values are the spec's own (30_encoding.md R62 and spec/95_test_vectors.md; the section is named
at each group), and a witness for every statement of Certificates/Slice0/Obligations.lean that has hypotheses. -/

namespace Sys2Proof.Tests

open Sys2Proof.Machine Sys2Proof.Config

-- One thread for this file: many small kernel evaluations wait for one another.
set_option Elab.async false

/-! ### Helpers -/

/-- The reset state of an instance with some word registers and buffers loaded by the host. -/
def loaded (width : Width) (lmax : Option Nat) (f : List (FReg × Nat)) (p : List (PReg × List Nat)) : State where
  width := width
  lmax := lmax
  regs := p.foldl (fun r x => r.writeP x.1 (x.2.map (BitVec.ofNat _)))
    (f.foldl (fun r x => r.writeF x.1 (BitVec.ofNat _ x.2)) (resetRegs width))
  pending := []
  returned := []

/-- The start states of most vectors: W = 8, LMAX unbounded. -/
def w8 (f : List (FReg × Nat)) (p : List (PReg × List Nat)) : State := loaded .w8 none f p

/-- The same with MODSUB set. -/
def w8c (c : Nat) (f : List (FReg × Nat)) : State :=
  let s := w8 f []
  { s with regs := s.regs.writeModsub (BitVec.ofNat _ c) }

/-- The next state, if the command has one. -/
def after (i : Instr) (s : State) : Option State :=
  match exec i s with
  | .next t => some t
  | .fault _ => none
  | .refused _ => none

/-- Some word registers, and STATUS, after a command. -/
def seeF (i : Instr) (s : State) (ds : List FReg) : Option (List Nat × Nat) :=
  (after i s).map fun t => (ds.map fun d => (t.regs.readF d).toNat, t.regs.status.toNat)

/-- Some buffers, and STATUS, after a command. -/
def seeP (i : Instr) (s : State) (ds : List PReg) : Option (List (List Nat) × Nat) :=
  (after i s).map fun t => (ds.map fun d => (t.regs.readP d).map BitVec.toNat, t.regs.status.toNat)

/-- RES and STATUS after a command. -/
def seeRes (i : Instr) (s : State) : Option (Nat × Nat) :=
  (after i s).map fun t => (t.regs.res.toNat, t.regs.status.toNat)

/-- MODSUB and STATUS after a command. -/
def seeModsub (i : Instr) (s : State) : Option (Nat × Nat) :=
  (after i s).map fun t => (t.regs.modsub.toNat, t.regs.status.toNat)

/-- The state after the transactions pending, at most `n` of them. -/
def afterSteps : Nat → State → Option State
  | 0, s => some s
  | n + 1, s =>
    match step s with
    | .next t => afterSteps n t
    | .fault _ => none
    | .refused _ => none

/-! ### Well-formedness (30_encoding.md R58, R59) -/

theorem test_wf_refuses_fdiv : (Instr.fdiv 2 2 0 1).wf = false ∧ (Instr.fdiv 0 1 0 0).wf = true := by decide +kernel
theorem test_wf_refuses_fmdiv : (Instr.fmdiv 1 1 4).wf = false ∧ (Instr.fmdiv 1 2 4).wf = true := by decide +kernel
theorem test_wf_refuses_pdiv : (Instr.pdiv 0 0 0 1).wf = false ∧ (Instr.pdiv 0 1 0 1).wf = true := by decide +kernel
theorem test_wf_refuses_paddi : (Instr.paddi 3 3).wf = false ∧ (Instr.paddi 3 4).wf = true := by decide +kernel

/-! ### Decoding: a word of every command (words of 95_test_vectors.md sections 2.1 and 2.4, 30_encoding.md R62) -/

theorem test_decode_configuration :
    decode 0x010C0000 = .ok (.setmod 3) ∧ decode 0x02000000 = .ok .defmod := by decide +kernel

theorem test_decode_field :
    decode 0x10A00000 = .ok (.fzero 5) ∧ decode 0x11000000 = .ok (.fone 0) ∧
    decode 0x12408000 = .ok (.fadd 2 0 1) ∧ decode 0x13408000 = .ok (.fmul 2 0 1) ∧
    decode 0x14440000 = .ok (.fneg 2 1) ∧ decode 0x15200000 = .ok (.finv 1 0) ∧
    decode 0x16200000 = .ok (.fginv 1 0) ∧ decode 0x17408000 = .ok (.fexp 2 0 1) ∧
    decode 0x18000000 = .ok (.fdeg 0) ∧ decode 0x1900FFFF = .ok (.fbit 0 0xFFFF) ∧
    decode 0x1A40B000 = .ok (.fdiv 2 3 0 1) ∧ decode 0x1B302000 = .ok (.fmdiv 1 2 4) := by decide +kernel

theorem test_decode_ring :
    decode 0x20600000 = .ok (.pzero 3) ∧ decode 0x21000000 = .ok (.pone 0) ∧
    decode 0x22050000 = .ok (.padd 0 1 2) ∧ decode 0x23248000 = .ok (.pmul 1 1 1) ∧
    decode 0x24440000 = .ok (.pneg 2 1) ∧ decode 0x2540B000 = .ok (.pdiv 2 3 0 1) ∧
    decode 0x26000000 = .ok (.pshl1 0) ∧ decode 0x2720000D = .ok (.pshl 1 13) ∧
    decode 0x28000000 = .ok (.pshr1 0) ∧ decode 0x29040000 = .ok (.paddi 0 1) ∧
    decode 0x2A000000 = .ok (.pclean 0) ∧ decode 0x2B040000 = .ok (.pdeg 1) ∧
    decode 0x2C14000E = .ok (.pbit 5 14) := by decide +kernel

/-- Every field bit by bit: op 0010 0101, rd 111, ra 110, rb 101, re 011, twelve zeros (30_encoding.md R51). -/
theorem test_decode_bits_format_r :
    decode 0b00100101_111_110_101_011_000000000000 = .ok (.pdiv 7 3 6 5) ∧
    encode (.pdiv 7 3 6 5) = 0b00100101_111_110_101_011_000000000000 := by decide +kernel

/-- op 0010 1100, rd 000, ra 101, 00, imm16 (30_encoding.md R52). -/
theorem test_decode_bits_format_i :
    decode 0b00101100_000_101_00_1000000000000001 = .ok (.pbit 5 0x8001) ∧
    encode (.pbit 5 0x8001) = 0b00101100_000_101_00_1000000000000001 := by decide +kernel

/-- The illegal words of 95_test_vectors.md section 2.2. -/
theorem test_decode_illegal :
    [0x00000000, 0xFFFFFFFF, 0x03000000, 0x1C000000, 0x2D000000, 0x0F000000, 0x1F000000, 0x30000000].map decode =
      List.replicate 8 (.error .unknownOpcode) ∧
    [0x13408001, 0x13408800, 0x2721000D, 0x2722000D].map decode = List.replicate 4 (.error .reservedBits) ∧
    [0x13409000, 0x02200000, 0x02040000, 0x012C0000, 0x10A40000, 0x10A08000, 0x14488000, 0x18200000, 0x2B200000,
      0x2724000D, 0x2C34000E, 0x19200007, 0x1B30A000, 0x26240000].map decode = List.replicate 14 (.error .unusedField) ∧
    [0x1A40A000, 0x1B301000, 0x25008000, 0x296C0000].map decode = List.replicate 4 (.error .operandConstraint) := by
  decide +kernel

theorem test_decode_legal_repeats :
    decode 0x1A001000 = .ok (.fdiv 0 1 0 0) ∧ decode 0x14000000 = .ok (.fneg 0 0) := by decide +kernel

/-- A table word is the command word; bits above the table's count are not read. -/
theorem test_decode_table_word :
    decodeTableWord 32 0x13408000 = some (.fmul 2 0 1) ∧ decodeTableWord 32 0x1_13408000 = some (.fmul 2 0 1) ∧
    decodeTableWord 32 0 = none := by decide +kernel

/-! ### Configuration and field commands (95_test_vectors.md sections 1.2, 2.4, 2.5 and 2.6) -/

theorem test_setmod : seeModsub (.setmod 3) (w8 [(3, 0x1D)] []) = some (0x1D, 0) ∧
    seeModsub (.setmod 3) (w8 [(3, 0xFF)] []) = some (0xFF, 0) := by decide +kernel
theorem test_defmod : seeModsub .defmod (w8c 0x1D []) = some (0x1B, 0) ∧
    seeModsub .defmod (loaded .w128 none [] []) = some (0x87, 0) := by decide +kernel
theorem test_fzero : seeF (.fzero 5) (w8 [(5, 0x77)] []) [5] = some ([0], 0) := by decide +kernel
theorem test_fone : seeF (.fone 0) (w8 [(0, 0x77)] []) [0] = some ([1], 0) := by decide +kernel
theorem test_fadd : seeF (.fadd 2 0 1) (w8 [(0, 0x8F), (1, 0x33)] []) [2, 0, 1] = some ([0xBC, 0x8F, 0x33], 0) ∧
    seeF (.fadd 0 0 0) (w8 [(0, 0x8F)] []) [0] = some ([0], 0) := by decide +kernel
theorem test_fmul : seeF (.fmul 2 0 1) (w8 [(0, 0x8F), (1, 0x33)] []) [2] = some ([0xF2], 0) ∧
    seeF (.fmul 1 1 1) (w8 [(1, 0x8F)] []) [1] = some ([0xCF], 0) ∧
    seeF (.fmul 2 0 1) (w8c 0x01 [(0, 0x02), (1, 0x80)]) [2] = some ([0x01], 0) := by decide +kernel
theorem test_fmul_wide :
    seeF (.fmul 2 0 1) (loaded .w16 none [(0, 0x8F33), (1, 0x1234)] []) [2] = some ([0x14DD], 0) ∧
    seeF (.fmul 2 0 1) (loaded .w64 none [(0, 0x8F338F338F338F33), (1, 0x1234123412341234)] []) [2] =
      some ([0xC338FA18C338FA18], 0) := by decide +kernel
theorem test_fneg : seeF (.fneg 2 1) (w8 [(1, 0x8F)] []) [2] = some ([0x8F], 0) := by decide +kernel
theorem test_finv : seeF (.finv 1 0) (w8 [(0, 0x8F)] []) [1] = some ([0xA4], 0) ∧
    seeF (.finv 0 0) (w8 [(0, 0xA4)] []) [0] = some ([0x8F], 0) ∧
    seeF (.finv 1 0) (loaded .w16 none [(0, 0x8F33)] []) [1] = some ([0xE66E], 0) := by decide +kernel
theorem test_finv_corners : seeF (.finv 1 0) (w8 [(0, 0), (1, 0x55)] []) [1] = some ([0x55], 1) ∧
    seeF (.finv 1 0) (w8c 0x01 [(0, 0x02)]) [1] = some ([0x40], 0) := by decide +kernel
theorem test_fginv : seeF (.fginv 1 0) (w8 [(0, 0x8F)] []) [1] = some ([0xA4], 0) ∧
    seeF (.fginv 1 0) (w8 [(0, 0x01)] []) [1] = some ([0x01], 0) ∧
    seeF (.fginv 1 0) (loaded .w32 none [(0, 0x8F338F33)] []) [1] = some ([0x627D6932], 0) := by decide +kernel
theorem test_fginv_corners : seeF (.fginv 1 0) (w8 [(0, 0), (1, 0x55)] []) [1] = some ([0x55], 2) ∧
    seeF (.fginv 1 0) (w8c 0x01 [(0, 0x03)]) [1] = some ([0x01], 0) ∧
    seeF (.fginv 1 0) (w8c 0x00 [(0, 0x02)]) [1] = some ([0x01], 0) := by decide +kernel
theorem test_fexp : seeF (.fexp 2 0 1) (w8 [(0, 0x8F), (1, 0xFE)] []) [2] = some ([0xA4], 0) ∧
    seeF (.fexp 2 0 1) (w8 [(0, 0x8F), (1, 0x03)] []) [2] = some ([0x6F], 0) ∧
    seeF (.fexp 2 0 1) (w8 [] []) [2] = some ([0x01], 0) := by decide +kernel
theorem test_fdeg : seeRes (.fdeg 0) (w8 [(0, 0x33)] []) = some (5, 0) ∧
    seeRes (.fdeg 0) (w8 [] []) = some (0xFFFFFFFF, 0) := by decide +kernel
theorem test_fbit : seeRes (.fbit 0 7) (w8 [(0, 0x8F)] []) = some (1, 0) ∧
    seeRes (.fbit 0 4) (w8 [(0, 0x8F)] []) = some (0, 0) ∧
    seeRes (.fbit 0 0xFFFF) (w8 [(0, 0xFF)] []) = some (0, 0) := by decide +kernel
theorem test_fdiv : seeF (.fdiv 2 3 0 1) (w8 [(0, 0x8F), (1, 0x33)] []) [2, 3] = some ([0x07, 0x16], 0) ∧
    seeF (.fdiv 0 1 0 1) (w8 [(0, 0x8F), (1, 0x33)] []) [0, 1] = some ([0x07, 0x16], 0) ∧
    seeF (.fdiv 2 3 0 1) (w8 [(0, 0x33), (1, 0x8F)] []) [2, 3] = some ([0, 0x33], 0) := by decide +kernel
theorem test_fdiv_stops : seeF (.fdiv 2 3 0 1) (w8 [(0, 5), (2, 0x55), (3, 0x66)] []) [2, 3] = some ([0x55, 0x66], 1) ∧
    seeF (.fdiv 2 2 0 0) (w8 [(0, 5), (2, 0x55)] []) [2] = some ([0x55], 3) := by decide +kernel
theorem test_fmdiv : seeF (.fmdiv 1 2 4) (w8 [(4, 0x8F)] []) [1, 2] = some ([0x02, 0x05], 0) ∧
    seeF (.fmdiv 1 2 4) (w8 [(4, 0x01)] []) [1, 2] = some ([0x1B, 0x00], 0) ∧
    seeF (.fmdiv 1 2 4) (w8 [(4, 0x33)] []) [1, 2] = some ([0x0F, 0x1A], 0) := by decide +kernel
theorem test_fmdiv_stops : seeF (.fmdiv 1 2 4) (w8 [(1, 0x55), (2, 0x66)] []) [1, 2] = some ([0x55, 0x66], 1) ∧
    seeF (.fmdiv 1 1 4) (w8 [(1, 0x55), (4, 3)] []) [1] = some ([0x55], 3) := by decide +kernel

/-! ### Polynomial commands (95_test_vectors.md sections 2.1 and 2.7) -/

theorem test_pzero : seeP (.pzero 3) (w8 [] [(3, [0x12])]) [3] = some ([[]], 0) := by decide +kernel
theorem test_pone : seeP (.pone 0) (w8 [] []) [0] = some ([[1]], 0) := by decide +kernel
theorem test_padd : seeP (.padd 0 1 2) (w8 [] [(1, [0x12, 0x34]), (2, [0x56, 0x34])]) [0] = some ([[0x44]], 0) ∧
    seeP (.padd 0 1 2) (w8 [] [(1, [0, 0]), (2, [0])]) [0] = some ([[]], 0) := by decide +kernel
theorem test_pmul : seeP (.pmul 0 1 2) (w8 [] [(1, [0x0F, 0xFF]), (2, [0x0F])]) [0] = some ([[0x55, 0x05, 0x05]], 0) ∧
    seeP (.pmul 0 1 2) (w8 [] [(1, [0x05, 0, 0]), (2, [0x01])]) [0] = some ([[0x05]], 0) := by decide +kernel
theorem test_pmul_capacity :
    seeP (.pmul 0 1 2) (loaded .w8 (some 2) [] [(1, [0xFF, 0xFF]), (2, [2]), (0, [0xAA])]) [0] = some ([[0xAA]], 4) ∧
    seeP (.pmul 0 1 2) (loaded .w8 (some 2) [] [(1, [0xFF, 0x7F]), (2, [2])]) [0] = some ([[0xFE, 0xFF]], 0) := by
  decide +kernel
theorem test_pneg : seeP (.pneg 2 1) (w8 [] [(1, [5, 0])]) [2] = some ([[5, 0]], 0) := by decide +kernel
theorem test_pdiv :
    seeP (.pdiv 2 3 0 1) (w8 [] [(0, [0x56, 5, 5]), (1, [0x0F, 1, 0, 0])]) [2, 3] = some ([[0x37, 5], [0x6B]], 0) ∧
    seeP (.pdiv 0 1 0 1) (w8 [] [(0, [0x56, 5, 5]), (1, [0x0F, 1])]) [0, 1] = some ([[0x37, 5], [0x6B]], 0) ∧
    seeP (.pdiv 2 3 0 1) (w8 [] [(0, [7, 0]), (1, [0x0F, 1])]) [2, 3] = some ([[], [7, 0]], 0) := by decide +kernel
theorem test_pdiv_stops :
    seeP (.pdiv 2 3 0 1) (w8 [] [(1, [0, 0]), (2, [0xAA]), (3, [0xBB])]) [2, 3] = some ([[0xAA], [0xBB]], 1) ∧
    seeP (.pdiv 2 2 0 1) (w8 [] [(1, [1]), (2, [0xAA])]) [2] = some ([[0xAA]], 3) := by decide +kernel
theorem test_pshl1 : seeP (.pshl1 0) (w8 [] [(0, [0x0F, 0xFF])]) [0] = some ([[0x1E, 0xFE, 0x01]], 0) ∧
    seeP (.pshl1 0) (loaded .w8 (some 2) [] [(0, [0, 0x40])]) [0] = some ([[0, 0x80]], 0) ∧
    seeP (.pshl1 0) (loaded .w8 (some 2) [] [(0, [0, 0x80])]) [0] = some ([[0, 0x80]], 4) := by decide +kernel
theorem test_pshl : seeP (.pshl 1 13) (w8 [] [(1, [0x0F, 0xFF])]) [1] = some ([[0, 0xE0, 0xE1, 0x1F]], 0) ∧
    seeP (.pshl 1 8) (w8 [] [(1, [0x0F, 0xFF])]) [1] = some ([[0, 0x0F, 0xFF]], 0) ∧
    seeP (.pshl 1 20) (w8 [] []) [1] = some ([[0, 0]], 0) := by decide +kernel
theorem test_pshl_capacity :
    seeP (.pshl 0 16) (loaded .w8 (some 2) [] [(0, [1])]) [0] = some ([[1]], 4) ∧
    seeP (.pshl 0 16) (loaded .w8 (some 2) [] []) [0] = some ([[0, 0]], 0) ∧
    seeP (.pshl 0 24) (loaded .w8 (some 2) [] []) [0] = some ([[]], 4) := by decide +kernel
theorem test_pshr1 : seeP (.pshr1 0) (w8 [] [(0, [0x1E, 0xFE, 0x01])]) [0] = some ([[0x0F, 0xFF, 0]], 0) := by
  decide +kernel
theorem test_paddi : seeP (.paddi 0 1) (w8 [] [(0, [1]), (1, [2, 0, 3])]) [0] = some ([[3, 0, 3]], 0) ∧
    seeP (.paddi 0 1) (w8 [] [(0, [0x0F, 0xFF]), (1, [0x0F, 0xFF])]) [0] = some ([[0, 0]], 0) ∧
    seeP (.paddi 3 3) (w8 [] [(3, [4])]) [3] = some ([[4]], 3) := by decide +kernel
theorem test_pclean : seeP (.pclean 0) (w8 [] [(0, [0x0F, 0xFF, 0])]) [0] = some ([[0x0F, 0xFF]], 0) ∧
    seeP (.pclean 0) (w8 [] [(0, [0, 0, 1])]) [0] = some ([[0, 0, 1]], 0) := by decide +kernel
theorem test_pdeg : seeRes (.pdeg 1) (w8 [] [(1, [0x0F, 0x4F, 0, 0])]) = some (14, 0) ∧
    seeRes (.pdeg 1) (w8 [] [(1, [0])]) = some (0xFFFFFFFF, 0) := by decide +kernel
theorem test_pbit : seeRes (.pbit 1 14) (w8 [] [(1, [0x0F, 0x4F])]) = some (1, 0) ∧
    seeRes (.pbit 1 16) (w8 [] [(1, [0x0F, 0x4F])]) = some (0, 0) := by decide +kernel

/-! ### The port, reset and the step (95_test_vectors.md section 2.8, 70_reset_and_hazards.md R190) -/

theorem test_port_lengths :
    ((w8 [] [(1, [0x0F, 0, 1])]).portRead 0x11 0 = 3) ∧
    (((w8 [] [(1, [0x0F, 0, 1])]).portWrite 0x11 0 1).regs.readP 1).map BitVec.toNat = [0x0F] ∧
    (((w8 [] [(1, [0x0F])]).portWrite 0x11 0 2).regs.readP 1).map BitVec.toNat = [0x0F, 0] ∧
    (((loaded .w8 (some 2) [] [(1, [0x0F])]).portWrite 0x11 0 3).regs.readP 1).map BitVec.toNat = [0x0F] := by decide +kernel

theorem test_port_words :
    (w8 [] [(1, [0x0F, 0, 1])]).portRead 0x21 2 = 1 ∧ (w8 [] [(1, [0x0F, 0, 1])]).portRead 0x21 3 = 0 ∧
    (((w8 [] [(1, [0, 0])]).portWrite 0x21 1 0x55).regs.readP 1).map BitVec.toNat = [0, 0x55] ∧
    (w8 [] [(1, [0, 0])]).portWrite 0x21 2 0x55 = w8 [] [(1, [0, 0])] ∧
    (w8 [] []).portWrite 0x03 0 0x1D = w8 [(3, 0x1D)] [] := by decide +kernel

theorem test_port_read_only :
    (w8 [] []).portRead 0x08 0 = 0x1B ∧ (w8 [] []).portRead 0x0B 0 = 0 ∧
    [0x08, 0x09, 0x0A, 0x30].map (fun sel => (w8 [] []).portWrite sel 0 0x1D) = List.replicate 4 (w8 [] []) := by
  decide +kernel

/-- The first two commands of Program E (95_test_vectors.md section 3), then a reset, through the step. -/
theorem test_step_runs_transactions :
    (afterSteps 4 { w8 [(0, 2), (1, 0x80), (3, 0x1D)] [] with
      pending := [.issue 0x13408000, .portRead 2 0, .issue 0x010C0000, .issue 0] }).map
        (fun t => (t.returned, t.regs.modsub.toNat, t.regs.status, t.pending)) =
      some ([.outcome 0, .value 0x1B, .outcome 0, .outcome 3], 0x1D, 3, []) ∧
    afterSteps 1 { w8c 0x1D [(0, 2)] with pending := [.reset] } = some State.reset := by decide +kernel

/-- HostLoad of [0x0F, 0xFF, 0x00] into p1 (20_memory.md R35). -/
theorem test_host_load :
    afterSteps 4 { w8 [] [(1, [7])] with pending := hostLoad 1 [0x0F#8, 0xFF#8, 0#8] } =
      some (w8 [] [(1, [0x0F, 0xFF, 0])]) := by decide +kernel

/-- The step runs the word put first by withFetchWord: PONE p0. -/
theorem test_step_with_fetch_word :
    (afterSteps 1 (State.reset.withFetchWord 32 0x21000000)).map (fun t => (t.regs.readP 0).map BitVec.toNat) =
      some [1] := by decide +kernel

/-! ### The assembler (30_encoding.md R60, R61, R62) -/

theorem test_assemble :
    assembleLine "PDIV p2, p3, p0, p1 ; quotient first".toList = some (.pdiv 2 3 0 1) ∧
    assembleLine "PSHL p1, 13".toList = some (.pshl 1 13) ∧ assembleLine "PBIT p5, 0x000E".toList = some (.pbit 5 14) ∧
    assembleLine "DEFMOD".toList = some .defmod ∧ assembleLine "FSQR f1, f2".toList = some (.fmul 1 2 2) ∧
    assembleLine "PMOV p0, p1".toList = some (.pneg 0 1) := by decide +kernel

theorem test_assemble_rejects :
    assembleLine "PSHL p1, 65536".toList = none ∧ assembleLine "FADD f1, f8, f0".toList = none ∧
    assembleLine "FADD f1, p0, f0".toList = none ∧ assembleLine "FADD f1, f0".toList = none ∧
    assembleLine "NOP".toList = none := by decide +kernel

/-! ### Witnesses: a state and operands that meet the hypotheses of each statement, clause by clause, at boundaries -/

theorem test_witness_DecodeOfEncodeIsTheCommand :
    (Instr.fdiv 7 0 7 7).wf = true ∧ (Instr.pshl 7 0xFFFF).wf = true := by decide +kernel

theorem test_witness_EncodeOfDecodeIsTheWord : decode 0x2C1CFFFF = .ok (.pbit 7 0xFFFF) := by decide +kernel

theorem test_witness_DecodedWordsMatchTheirTableRow :
    decode 0x1AFFE000 = .ok (.fdiv 7 6 7 7) ∧
    (0x1AFFE000 &&& (tableRow (.fdiv 0 1 0 0)).2 = (tableRow (.fdiv 0 1 0 0)).1) ∧
    (0x1AFFF000 &&& (tableRow (.fdiv 0 1 0 0)).2 = (tableRow (.fdiv 0 1 0 0)).1) ∧
    decode 0x1AFFF000 = .error .operandConstraint := by decide +kernel

/-- One word for each case of R56, and a legal word with every field at its end. -/
theorem test_witness_IllegalWordsChangeOnlyStatus :
    IllegalWord 0x2D000000 ∧ IllegalWord 0x13408800 ∧ IllegalWord 0x2722000D ∧ IllegalWord 0x02200000 ∧
    IllegalWord 0x10A40000 ∧ IllegalWord 0x14488000 ∧ IllegalWord 0x13409000 ∧ IllegalWord 0x1A40A000 ∧
    IllegalWord 0x296C0000 ∧ ¬ IllegalWord 0x27E0FFFF := by
  unfold IllegalWord
  refine ⟨?_, ?_, ?_, ?_, ?_, ?_, ?_, ?_, ?_, ?_⟩ <;> decide +kernel

theorem test_witness_EqualDestinationsAreIllegal : (7 : Fin 8) ≠ 0 := by decide

theorem test_witness_PaddiWithOneBufferIsIllegal : (7 : Fin 8) ≠ 0 := by decide

/-- FMUL f2, f0, f1 pending before a second transaction. -/
theorem test_witness_StepIssuesTheDecodedCommand :
    ({ w8 [(0, 2), (1, 0x80)] [] with pending := [.issue 0x13408000, .reset] } : State).pending =
      .issue 0x13408000 :: [.reset] ∧
    decode 0x13408000 = .ok (.fmul 2 0 1) ∧ (Instr.fmul 2 0 1).wf = true ∧
    ∃ t, exec (.fmul 2 0 1) { w8 [(0, 2), (1, 0x80)] [] with pending := [.reset] } = .next t :=
  ⟨rfl, by decide +kernel, rfl, _, rfl⟩

theorem test_witness_EveryStepAnswersANextState : State.reset.pending = [] := rfl

theorem test_witness_StepKeepsTheInstance :
    ∃ t, step { loaded .w16 (some 3) [] [] with pending := [.reset] } = .next t := ⟨_, rfl⟩

/-- PSHL1 of a full buffer of an LMAX = 2 instance, a command that fails, and the next one, that fits. -/
theorem test_witness_StepKeepsTheInvariant :
    ({ loaded .w8 (some 2) [] [(0, [0, 0x80])] with pending := [.issue 0x26000000] } : State).inv = true ∧
    (afterSteps 1 { loaded .w8 (some 2) [] [(0, [0, 0x80])] with pending := [.issue 0x26000000] }).map
      (fun t => (t.regs.status, t.inv)) = some (4, true) ∧
    ({ loaded .w8 (some 2) [] [(0, [0, 0x40])] with pending := [.issue 0x26000000] } : State).inv = true ∧
    (afterSteps 1 { loaded .w8 (some 2) [] [(0, [0, 0x40])] with pending := [.issue 0x26000000] }).map
      (fun t => (t.regs.status, t.inv)) = some (0, true) := by decide +kernel

/-- The least and the greatest capacity of an instance, and one beyond. -/
theorem test_witness_ResetMeetsTheInvariant :
    (State.resetOf .w8 (some 1)).instanceLegal = true ∧ (State.resetOf .w128 (some 16777215)).instanceLegal = true ∧
    (State.resetOf .w128 (some 16777216)).instanceLegal = false ∧ (State.resetOf .w64 none).instanceLegal = true := by
  decide +kernel

theorem test_witness_ResetTransactionRestoresEveryRegister :
    ({ w8 [(0, 1)] [] with pending := [.reset, .issue 0] } : State).pending = .reset :: [.issue 0] := rfl

theorem test_witness_FailuresWriteOnlyStatus :
    (seeF (.finv 1 0) (w8 [] []) [1] = some ([0], 1) ∧ seeF (.fginv 1 0) (w8 [] []) [1] = some ([0], 2)) ∧
    (∃ t, (w8 [] []).issue 0x15200000 = .next t ∧ t.regs.status = 1) ∧
    (∃ t, (w8 [] []).issue 0xFFFFFFFF = .next t ∧ t.regs.status = 3) :=
  ⟨by decide +kernel, ⟨_, rfl, by decide +kernel⟩, ⟨_, rfl, by decide +kernel⟩⟩

theorem test_witness_OutcomesAreTheListedOnes :
    (Instr.fdiv 2 3 0 1).wf = true ∧ (∃ t, exec (.fdiv 2 3 0 1) (w8 [] []) = .next t ∧ t.regs.status = 1) ∧
    (∃ t, (w8 [] []).issue 0 = .next t) := ⟨rfl, ⟨_, rfl, by decide +kernel⟩, ⟨_, rfl⟩⟩

theorem test_witness_CommandsThatNeverFail :
    (7 : Fin 8) ≠ 0 ∧ (w8 [] []).lmax = none ∧ (loaded .w8 (some 2) [] [(0, [0, 0x80])]).lmax = some 2 ∧
    seeP (.pshl1 0) (loaded .w8 (some 2) [] [(0, [0, 0x80])]) [0] = some ([[0, 0x80]], 4) := by decide +kernel

theorem test_witness_WordCommandFrame :
    (effects (.fdiv 2 3 0 1)).ring = false ∧ (4 : Fin 8) ∉ (effects (.fdiv 2 3 0 1)).fDests ∧
    (effects (.fdiv 2 3 0 1)).writesModsub = false ∧ (effects (.fdiv 2 3 0 1)).writesRes = false := by decide +kernel

theorem test_witness_RingCommandFrame :
    (effects (.pdiv 2 3 0 1)).ring = true ∧ (4 : Fin 8) ∉ (effects (.pdiv 2 3 0 1)).pDests ∧
    (effects (.pdiv 2 3 0 1)).writesRes = false := by decide +kernel

/-- PDEG p1 of the zero polynomial changes RES from 0, and a reset changes it back. -/
theorem test_witness_ResChangesOnlyByItsFourCommands :
    (∃ t, step { w8 [] [] with pending := [.issue 0x2B040000] } = .next t ∧ t.regs.res ≠ (w8 [] []).regs.res) ∧
    (∃ t, step { w8 [] [] with regs := (resetRegs .w8).writeRes 7, pending := [.reset] } = .next t ∧ t.regs.res ≠ 7) :=
  ⟨⟨_, rfl, by decide +kernel⟩, ⟨_, rfl, by decide +kernel⟩⟩

/-- SETMOD f3 with f3 = 0, and a reset with MODSUB = 0x1D. -/
theorem test_witness_ModsubChangesOnlyBySetmodDefmodReset :
    (∃ t, step { w8 [] [] with pending := [.issue 0x010C0000] } = .next t ∧ t.regs.modsub.toNat ≠ 0x1B) ∧
    (∃ t, step { w8c 0x1D [] with pending := [.reset] } = .next t ∧ t.regs.modsub.toNat ≠ 0x1D) :=
  ⟨⟨_, rfl, by decide +kernel⟩, ⟨_, rfl, by decide +kernel⟩⟩

/-- FMUL f2, f0, f1 on registers that differ in f2, p0 and STATUS, which it does not read. -/
theorem test_witness_NamedSourcesDetermineTheResult :
    (effects (.fmul 2 0 1)).fSources = [0, 1] ∧ (effects (.fmul 2 0 1)).pSources = [] ∧
    ∃ (s : State) (x : Regs s.width.bits), x ≠ s.regs ∧ x.f[(0 : Fin 8)] = s.regs.f[(0 : Fin 8)] ∧
      x.f[(1 : Fin 8)] = s.regs.f[(1 : Fin 8)] ∧ x.modsub = s.regs.modsub :=
  ⟨rfl, rfl, w8 [(0, 0x8F), (1, 0x33)] [],
    (((w8 [(0, 0x8F), (1, 0x33)] []).regs.writeF 2 0x55).writeP 0 [1]).writeStatus 4, by decide +kernel⟩

theorem test_witness_FinvWritesTheFermatPower :
    (w8 [(0, 1)] []).regs.f[(0 : Fin 8)] ≠ 0 ∧ (w8 [] []).regs.f[(0 : Fin 8)] = 0 := by decide +kernel

/-- The common divisor 0x03 of f0 = 0x03 and the reducible modulus 0x101, the whole of both that 0x03 can divide. -/
theorem test_witness_FginvWritesABezoutCoefficient :
    (w8c 0x01 [(0, 0x03)]).regs.f[(0 : Fin 8)] ≠ 0 ∧ (pdivmod 0x03 3).2 = 0 ∧
    modulus (w8c 0x01 [(0, 0x03)]).regs.modsub = 0x101 ∧ (pdivmod 0x101 3).2 = 0 ∧
    (w8 [] []).regs.f[(0 : Fin 8)] = 0 := by decide +kernel

/-- The modulus 0x11B of the reset state is irreducible (95_test_vectors.md section 1.3). -/
theorem test_witness_FginvInvertsUnderAnIrreducibleModulus :
    IrreducibleModulus (modulus (w8 [(0, 0x8F)] []).regs.modsub) ∧ (w8 [(0, 0x8F)] []).regs.f[(0 : Fin 8)] ≠ 0 := by
  unfold IrreducibleModulus; decide +kernel

theorem test_witness_InversionPathsAgreeUnderAnIrreducibleModulus :
    IrreducibleModulus (modulus (w8c 0x1D [(0, 2)]).regs.modsub) ∧ (w8c 0x1D [(0, 2)]).regs.f[(0 : Fin 8)] ≠ 0 := by
  unfold IrreducibleModulus; decide +kernel

/-- Bit 0 and bit 7 as the highest set bit, and no bit. -/
theorem test_witness_FdegWritesTheDegree :
    (w8 [] []).regs.f[(0 : Fin 8)] = 0 ∧
    ((w8 [(0, 1)] []).regs.f[(0 : Fin 8)].getLsbD 0 = true ∧
      ∀ j, 0 < j → (w8 [(0, 1)] []).regs.f[(0 : Fin 8)].getLsbD j = false) ∧
    ((w8 [(0, 0x80)] []).regs.f[(0 : Fin 8)].getLsbD 7 = true ∧
      ∀ j, 7 < j → (w8 [(0, 0x80)] []).regs.f[(0 : Fin 8)].getLsbD j = false) := by
  refine ⟨by decide +kernel, ⟨by decide +kernel, fun j hj => ?_⟩, ⟨by decide +kernel, fun j hj => ?_⟩⟩
  · show (1#8).getLsbD j = false
    simp [BitVec.getLsbD_one]; omega
  · exact BitVec.getLsbD_of_ge _ j hj

theorem test_witness_FbitWritesTheBit :
    (7 : Imm16).toNat < (w8 [] []).width.bits ∧ (w8 [] []).width.bits ≤ (8 : Imm16).toNat := by decide +kernel

theorem test_witness_FdivWritesQuotientAndRemainder :
    (2 : Fin 8) ≠ 3 ∧ (w8 [(1, 1)] []).regs.f[(1 : Fin 8)] ≠ 0 ∧ (w8 [] []).regs.f[(1 : Fin 8)] = 0 := by decide +kernel

theorem test_witness_FmdivDividesTheModulus :
    (1 : Fin 8) ≠ 2 ∧ (w8 [(4, 2)] []).regs.f[(4 : Fin 8)] ≠ 0 ∧ (w8 [(4, 2)] []).regs.f[(4 : Fin 8)] ≠ 1 ∧
    (w8 [(4, 1)] []).regs.f[(4 : Fin 8)] = 1 ∧ (w8 [] []).regs.f[(4 : Fin 8)] = 0 := by decide +kernel

theorem test_witness_ModulusDivisionProperty : 1 ≤ fdeg (0x02 : Word 8) ∧ 1 ≤ fdeg (0xFF : Word 8) := by decide +kernel

/-- A product of exactly LMAX words and one of LMAX + 1 words. -/
theorem test_witness_PmulWritesTheCanonicalProduct :
    (∀ n, (loaded .w8 (some 2) [] [(1, [0xFF, 0x7F]), (2, [2])]).lmax = some n →
      (canon 8 (clmul (val [0xFF#8, 0x7F#8]) (val [2#8]))).length ≤ n) ∧
    ((loaded .w8 (some 2) [] [(1, [0xFF, 0xFF]), (2, [2])]).lmax = some 2 ∧
      2 < (canon 8 (clmul (val [0xFF#8, 0xFF#8]) (val [2#8]))).length) :=
  ⟨fun n h => by cases h; decide +kernel, by decide +kernel⟩

/-- A shifted sequence of exactly LMAX words and one of LMAX + 1 words. -/
theorem test_witness_Pshl1DoublesTheValue :
    (val [0#8, 0x80#8] = val [0#8, 0x40#8] <<< 1 ∧
      ∀ n, (loaded .w8 (some 2) [] [(0, [0, 0x40])]).lmax = some n → [0#8, 0x80#8].length ≤ n) ∧
    (val [0#8, 0#8, 1#8] = val [0#8, 0x80#8] <<< 1 ∧ (loaded .w8 (some 2) [] [(0, [0, 0x80])]).lmax = some 2 ∧
      2 < [0#8, 0#8, 1#8].length) :=
  ⟨⟨by decide +kernel, fun n h => by cases h; decide⟩, by decide +kernel⟩

/-- [0x01, 0x01] by 7 has 2 words, by 8 has 3. -/
theorem test_witness_PshlShiftsTheValue :
    (val [0x80#8, 0x80#8] = val [1#8, 1#8] <<< 7 ∧
      ∀ n, (loaded .w8 (some 2) [] [(0, [1, 1])]).lmax = some n → [0x80#8, 0x80#8].length ≤ n) ∧
    (val [0#8, 1#8, 1#8] = val [1#8, 1#8] <<< 8 ∧ (loaded .w8 (some 2) [] [(0, [1, 1])]).lmax = some 2 ∧
      2 < [0#8, 1#8, 1#8].length) :=
  ⟨⟨by decide +kernel, fun n h => by cases h; decide⟩, by decide +kernel⟩

theorem test_witness_PaddiXorsInPlace : (0 : Fin 8) ≠ 7 := by decide

theorem test_witness_PdegWritesTheDegreeOfTheValue :
    deg (val (w8 [] [(1, [0x0F, 0x4F])]).regs.p[(1 : Fin 8)]) < 2 ^ 31 ∧
    val (w8 [] [(1, [0, 0])]).regs.p[(1 : Fin 8)] = 0 := by decide +kernel

/-- The last stored bit and the first beyond. -/
theorem test_witness_PbitWritesTheBit :
    (∃ x, (w8 [] [(1, [0x0F, 0x4F])]).regs.p[(1 : Fin 8)][(15 : Imm16).toNat / (w8 [] []).width.bits]? = some x) ∧
    (w8 [] [(1, [0x0F, 0x4F])]).regs.p[(1 : Fin 8)].length ≤ (16 : Imm16).toNat / (w8 [] []).width.bits :=
  ⟨⟨_, rfl⟩, by decide +kernel⟩

/-- Divisor zero; dividend of a degree one less than the divisor's; of the divisor's degree. -/
theorem test_witness_PdivRefinesPolynomialDivision :
    (2 : Fin 8) ≠ 3 ∧ val (w8 [] [(1, [0, 0])]).regs.p[(1 : Fin 8)] = 0 ∧
    val (w8 [] [(1, [0, 1])]).regs.p[(1 : Fin 8)] ≠ 0 ∧
    deg (val (w8 [] [(0, [0xFF, 0]), (1, [0, 1])]).regs.p[(0 : Fin 8)]) <
      deg (val (w8 [] [(0, [0xFF, 0]), (1, [0, 1])]).regs.p[(1 : Fin 8)]) ∧
    deg (val (w8 [] [(0, [0xFF, 1]), (1, [0, 1])]).regs.p[(1 : Fin 8)]) ≤
      deg (val (w8 [] [(0, [0xFF, 1]), (1, [0, 1])]).regs.p[(0 : Fin 8)]) := by decide +kernel

theorem test_witness_ValueDivisionIsEuclidean :
    (3 : Nat) ≠ 0 ∧ (0x11B : Nat) = clmul 0xF6 3 ^^^ 1 ∧ deg 1 < deg 3 := by decide +kernel

theorem test_witness_DivisionRebuildsTheDividend : val [0#8, 1#8] ≠ 0 := by decide +kernel

/-- A read pending; a length the port can show; the ends of the reserved ranges of selectors. -/
theorem test_witness_PortReadsReturnRegistersAndChangeNone :
    ({ w8 [] [] with pending := [.portRead 0x27 0] } : State).pending = .portRead 0x27 0 :: [] ∧
    (w8 [] [(1, [1, 2])]).regs.p[(1 : Fin 8)].length < 2 ^ 32 ∧
    (0x0A < (0x0B : BitVec 8).toNat ∧ (0x0B : BitVec 8).toNat < 0x10) ∧ (0x0F : BitVec 8).toNat < 0x10 ∧
    (0x17 < (0x18 : BitVec 8).toNat ∧ (0x1F : BitVec 8).toNat < 0x20) ∧ 0x27 < (0x28 : BitVec 8).toNat := by
  decide +kernel

/-- LMAX = 2: a length of 3 is refused, 2 is taken, on a longer, an equal and a shorter buffer. -/
theorem test_witness_PortLengthWriteResizesTheBuffer :
    ((loaded .w8 (some 2) [] []).lmax = some 2 ∧ 2 < ((3 : PortData).setWidth 32).toNat) ∧
    (∀ l, (loaded .w8 (some 2) [] []).lmax = some l → ((2 : PortData).setWidth 32).toNat ≤ l) ∧
    ((2 : PortData).setWidth 32).toNat ≤ (loaded .w8 (some 2) [] [(1, [1, 2])]).regs.p[(1 : Fin 8)].length ∧
    (loaded .w8 (some 2) [] [(1, [1])]).regs.p[(1 : Fin 8)].length < ((2 : PortData).setWidth 32).toNat :=
  ⟨by decide +kernel, fun l h => by cases h; decide +kernel, by decide +kernel, by decide +kernel⟩

/-- The last stored word and the first beyond; the ends of the ranges of selectors that ignore writes; a write pending. -/
theorem test_witness_PortWordWriteAndIgnoredWrites :
    1 < (w8 [] [(1, [1, 2])]).regs.p[(1 : Fin 8)].length ∧ (w8 [] [(1, [1, 2])]).regs.p[(1 : Fin 8)].length ≤ 2 ∧
    (0x07 < (0x08 : BitVec 8).toNat ∧ (0x0F : BitVec 8).toNat < 0x10) ∧
    (0x17 < (0x18 : BitVec 8).toNat ∧ (0x1F : BitVec 8).toNat < 0x20) ∧ 0x27 < (0x28 : BitVec 8).toNat ∧
    ({ w8 [] [(1, [1, 2])] with pending := [.portWrite 0x21 1 5, .reset] } : State).pending =
      .portWrite 0x21 1 5 :: [.reset] := by
  decide +kernel

/-- A sequence of exactly LMAX words. -/
theorem test_witness_HostLoadLoadsTheSequence :
    [1#8, 0#8].length < 2 ^ 32 ∧ ∀ l, (loaded .w8 (some 2) [] []).lmax = some l → [1#8, 0#8].length ≤ l :=
  ⟨by decide +kernel, fun l h => by cases h; decide⟩

end Sys2Proof.Tests
end

section
/-! PROOF. Which words the decoder rejects, and what issuing one does (spec/30_encoding.md R55 to R59).

The columns of the opcode map are read off the opcode once (`formatOf`), and every command of the table is shown to be
accepted by its row's format (`decode_cases`); the rest speaks of the format and no longer of the 27 opcodes. -/

namespace Sys2Proof.Machine

/-! ### The opcode map as a function of the opcode -/

/-- The columns fmt, rd, ra, rb, re of 30_encoding.md R55 for an opcode of the table. -/
def formatOf (op : BitVec 8) : Format :=
  if op ∈ opcodesI then .i (op ∉ opcodesNoRd) (op ∉ opcodesNoRa)
  else .r (op ∉ opcodesNoRd) (op ∉ opcodesNoRa) (op ∈ opcodesRb) (op ∈ opcodesRe)

/-- The operand constraints of 30_encoding.md R58 and R59, on the fields of the word. -/
def OperandsDiffer (cw : CommandWord) : Prop :=
  (opField cw ∈ opcodesRe → rdField cw ≠ reField cw) ∧ (opField cw = 0x29 → rdField cw ≠ raField cw)

/-- The word with the opcode and the used fields of `cw`, and zero everywhere else. -/
def usedFields (cw : CommandWord) : Format → CommandWord
  | .r rd ra rb re => formatR (opField cw) (bif rd then rdOf cw else 0) (bif ra then raOf cw else 0)
      (bif rb then rbOf cw else 0) (bif re then reOf cw else 0)
  | .i rd ra => formatI (opField cw) (bif rd then rdOf cw else 0) (bif ra then raOf cw else 0) (immField cw)

/-- `i` is the command the fields of `cw` spell: the decoder has only the format and the operands left to check. -/
structure Spells (cw : CommandWord) (i : Instr) : Prop where
  decode_eq : decode cw = accept cw (formatOf (opField cw)) i
  wf_iff : i.wf = true ↔ OperandsDiffer cw
  encode_eq : encode i = usedFields cw (formatOf (opField cw))

theorem regOf_ne_regOf_iff (x y : BitVec 3) : regOf x ≠ regOf y ↔ x ≠ y :=
  not_congr BitVec.toFin_inj

/-- A word whose opcode is not in the table is rejected for it; any other word spells a command of its opcode's row. -/
theorem decode_cases (cw : CommandWord) :
    (opField cw ∉ opcodes ∧ decode cw = .error .unknownOpcode) ∨
    (opField cw ∈ opcodes ∧ ∃ i, Spells cw i) := by
  by_cases hop : opField cw ∈ opcodes
  · refine .inr ⟨hop, ?_⟩
    simp only [opcodes, List.mem_cons, List.not_mem_nil, or_false] at hop
    rcases hop with h | h | h | h | h | h | h | h | h | h | h | h | h | h | h | h | h | h | h | h | h | h | h | h | h |
      h | h
    all_goals
      refine ⟨_, by simp only [decode, h]; rfl, ?_, ?_⟩
      · simp [Instr.wf, OperandsDiffer, h, opcodesRe, rdOf, raOf, reOf, regOf_ne_regOf_iff]
      · rw [h]; simp only [encode, usedFields, h]; rfl
  · refine .inl ⟨hop, ?_⟩
    unfold decode
    split
    case h_28 => rfl
    all_goals simp_all [opcodes]

/-! ### Accepted words -/

/-- The error side of `accept_eq_ok_iff`. -/
theorem accept_error_iff (cw : CommandWord) (fmt : Format) (i : Instr) :
    (∃ e, accept cw fmt i = .error e) ↔
      ¬ (reservedZero cw fmt = true ∧ unusedZero cw fmt = true ∧ i.wf = true) := by
  cases h : accept cw fmt i with
  | error e =>
    have hne : accept cw fmt i ≠ .ok i := by simp [h]
    rw [Ne, accept_eq_ok_iff] at hne
    simpa using hne
  | ok j =>
    obtain ⟨hres, hun, hwf, -⟩ := (accept_eq_ok_iff cw fmt i j).mp h
    simp [hres, hun, hwf]

/-- Clearing a field that is zero already changes no operand. -/
theorem bif_regOf_eq {used : Bool} {x : BitVec 3} (h : (used || x == 0#3) = true) :
    (bif used then regOf x else 0) = regOf x := by
  cases used with
  | true => rfl
  | false =>
    have hx : x = 0#3 := by simpa using h
    subst hx; rfl

/-- A word with its reserved bits and its unused fields zero is made of its used fields alone. -/
theorem usedFields_eq_self {cw : CommandWord} {fmt : Format} (hres : reservedZero cw fmt = true)
    (hun : unusedZero cw fmt = true) : usedFields cw fmt = cw := by
  cases fmt with
  | r rd ra rb re =>
    simp only [reservedZero, beq_iff_eq] at hres
    simp only [unusedZero, Bool.and_eq_true] at hun
    obtain ⟨⟨⟨hrd, hra⟩, hrb⟩, hre⟩ := hun
    calc usedFields cw (.r rd ra rb re)
        = formatR (opField cw) (rdOf cw) (raOf cw) (rbOf cw) (reOf cw) := by
          simp only [usedFields, rdOf, raOf, rbOf, reOf, bif_regOf_eq, hrd, hra, hrb, hre]
      _ = cw := formatR_of_fields cw hres
  | i rd ra =>
    simp only [reservedZero, beq_iff_eq] at hres
    simp only [unusedZero, Bool.and_eq_true] at hun
    obtain ⟨hrd, hra⟩ := hun
    calc usedFields cw (.i rd ra)
        = formatI (opField cw) (rdOf cw) (raOf cw) (immField cw) := by
          simp only [usedFields, rdOf, raOf, bif_regOf_eq, hrd, hra]
      _ = cw := formatI_of_fields cw hres

/-- An accepted word is the encoding of the command it is accepted as, and the command is well formed. -/
theorem wf_and_encode_eq_of_decode {cw : CommandWord} {i : Instr} (h : decode cw = .ok i) :
    i.wf = true ∧ encode i = cw := by
  rcases decode_cases cw with ⟨-, herr⟩ | ⟨-, j, hj⟩
  · rw [herr] at h; cases h
  · rw [hj.decode_eq, accept_eq_ok_iff] at h
    obtain ⟨hres, hun, hwf, rfl⟩ := h
    exact ⟨hwf, hj.encode_eq.trans (usedFields_eq_self hres hun)⟩

/-! ### Illegal words -/

/-- Cases (a) to (e) of 30_encoding.md R56 in the decoder's terms: (a) the opcode, (b) and (c) the reserved bits,
(d) the unused fields, (e) the operand constraints. -/
theorem illegalWord_iff (cw : CommandWord) :
    IllegalWord cw ↔ opField cw ∉ opcodes ∨
      ¬ (reservedZero cw (formatOf (opField cw)) = true ∧ unusedZero cw (formatOf (opField cw)) = true ∧
        OperandsDiffer cw) := by
  unfold IllegalWord formatOf OperandsDiffer opField rdField raField reField
  by_cases hI : cw.extractLsb' 24 8 ∈ opcodesI
  · simp [hI, reservedZero, unusedZero, rdField, raField, not_and_or, or_assoc, -not_and]
  · simp [hI, reservedZero, unusedZero, rdField, raField, rbField, reField, not_and_or, or_assoc, -not_and]

/-- The decoder rejects exactly the illegal words. -/
theorem illegalWord_iff_decode_error (cw : CommandWord) : IllegalWord cw ↔ ∃ e, decode cw = .error e := by
  rw [illegalWord_iff]
  rcases decode_cases cw with ⟨hop, herr⟩ | ⟨hop, i, hi⟩
  · simp [hop, herr]
  · rw [hi.decode_eq, accept_error_iff, hi.wf_iff]
    simp [hop]

/-- Issuing a rejected word writes STATUS 3 and hands 3 back; nothing else changes (30_encoding.md R56). -/
theorem State.issue_of_decode_error (s : State) {cw : CommandWord} {e : Illegal} (h : decode cw = .error e) :
    s.issue cw = .next { s with regs := { s.regs with status := 3 }, returned := s.returned ++ [.outcome 3] } := by
  rcases s.issue_cases cw with ⟨-, -, hissue⟩ | ⟨i, hok, -⟩
  · exact hissue
  · rw [h] at hok; cases hok

/-- Settles O4, by reading the cases of R56 as the checks of the decoder. -/
theorem illegalWordsChangeOnlyStatus : Obligations.IllegalWordsChangeOnlyStatus := by
  unfold Obligations.IllegalWordsChangeOnlyStatus
  refine ⟨fun cw => ⟨illegalWord_iff_decode_error cw, fun hill s => ?_, fun hleg => ?_⟩, ?_, ?_⟩
  · obtain ⟨e, he⟩ := (illegalWord_iff_decode_error cw).mp hill
    exact s.issue_of_decode_error he
  · rw [illegalWord_iff_decode_error] at hleg
    cases hd : decode cw with
    | error e => exact absurd ⟨e, hd⟩ hleg
    | ok i => exact ⟨i, wf_and_encode_eq_of_decode hd⟩
  · exact .inl (by decide)
  · exact .inl (by decide)

end Sys2Proof.Machine
end

section
/-! PROOF. The ring commands PZERO, PONE and PBIT: the words that name them and the states they end in
(spec/41_polyring.md R80, R81, R91). -/

namespace Sys2Proof.Machine

/-! ### The command words -/

/-- A format R word whose only register is rd is accepted by the row that uses rd alone. -/
theorem accept_formatR_rd (op : BitVec 8) (d : PReg) {i : Instr} (hwf : i.wf = true) :
    accept (formatR op d 0 0 0) (.r true false false false) i = .ok i :=
  (accept_eq_ok_iff _ _ _ _).mpr ⟨reservedZero_formatR .., by simp [unusedZero], hwf, rfl⟩

theorem decode_pzero_word (d : PReg) : decode (formatR 0x20 d 0 0 0) = .ok (.pzero d) := by
  have hrow : decode (formatR 0x20 d 0 0 0) =
      accept (formatR 0x20 d 0 0 0) (.r true false false false) (.pzero d) := by simp [decode, rdOf]
  rw [hrow, accept_formatR_rd 0x20 d rfl]

theorem decode_pone_word (d : PReg) : decode (formatR 0x21 d 0 0 0) = .ok (.pone d) := by
  have hrow : decode (formatR 0x21 d 0 0 0) =
      accept (formatR 0x21 d 0 0 0) (.r true false false false) (.pone d) := by simp [decode, rdOf]
  rw [hrow, accept_formatR_rd 0x21 d rfl]

theorem decode_pbit_word (a : PReg) (n : Imm16) : decode (formatI 0x2C 0 a n) = .ok (.pbit a n) := by
  have hrow : decode (formatI 0x2C 0 a n) = accept (formatI 0x2C 0 a n) (.i false true) (.pbit a n) := by
    simp [decode, raOf]
  rw [hrow, accept_eq_ok_iff]
  exact ⟨reservedZero_formatI .., by simp [unusedZero], rfl, rfl⟩

/-! ### The constants -/

theorem exec_pzero (d : PReg) (s : State) :
    exec (.pzero d) s = .next { s with regs := { s.regs with p := s.regs.p.set d [], status := 0 } } := rfl

theorem exec_pone (d : PReg) (s : State) :
    exec (.pone d) s = .next { s with regs := { s.regs with p := s.regs.p.set d [1], status := 0 } } := rfl

/-- Settles O41: the worked words are the format R words of rd 3 and rd 0. -/
theorem pzeroPoneWriteTheConstants : Obligations.PzeroPoneWriteTheConstants := by
  have hzero : formatR 0x20 3 0 0 0 = 0x20600000 := by decide
  have hone : formatR 0x21 0 0 0 0 = 0x21000000 := by decide
  exact ⟨fun d s => ⟨decode_pzero_word d, decode_pone_word d, exec_pzero d s, exec_pone d s⟩,
    hzero ▸ decode_pzero_word 3, hone ▸ decode_pone_word 0⟩

/-! ### The bit test -/

section BitAt

variable {w : Nat} {q : Seq w} {i : Nat}

/-- The tested bit lies in a stored word (41_polyring.md R91). -/
theorem bitAt_of_getElem? {x : Word w} (hx : q[i / w]? = some x) : bitAt q i = x.getLsbD (i % w) := by
  rw [bitAt, List.getD_eq_getElem?_getD, hx, Option.getD_some]

/-- The tested bit lies beyond the stored words (41_polyring.md R91). -/
theorem bitAt_of_length_le (hq : q.length ≤ i / w) : bitAt q i = false := by
  rw [bitAt, List.getD_eq_default _ _ hq, BitVec.getLsbD_zero]

end BitAt

/-- PBIT changes RES, to what `bit_at` reads, and STATUS, to OK. -/
theorem exec_pbit (a : PReg) (n : Imm16) (s : State) :
    exec (.pbit a n) s = .next { s with regs := { s.regs with
      res := if bitAt s.regs.p[a] n.toNat then 1 else 0, status := 0 } } := rfl

/-- Settles O50: RES is what `bit_at` reads, which is a bit of a stored word, 0 beyond the stored words, and in both
cases a bit of the value. -/
theorem pbitWritesTheBit : Obligations.PbitWritesTheBit := by
  refine ⟨fun a n s => ⟨decode_pbit_word a n, fun x hx => ?_, fun hlen => ?_, ?_⟩, ?_⟩
  · rw [exec_pbit, bitAt_of_getElem? hx]
  · rw [exec_pbit, bitAt_of_length_le hlen]; rfl
  · have hw : 0 < s.width.bits := Nat.lt_of_lt_of_le (by decide) (eight_le_bits s.width)
    rw [exec_pbit, testBit_val hw]
  · decide

end Sys2Proof.Machine
end

section
/-! PROOF. The commands with a constant, copied or XORed result and the two that read a word into RES: DEFMOD, FZERO,
FONE, FADD, FNEG with PNEG, FDEG and FBIT (spec/42_field.md R122 to R133, spec/41_polyring.md R84). -/

namespace Sys2Proof.Machine

/-! ### The command words -/

/-- A format R word is the command that its row of the opcode map spells, when the fields the row leaves unused are zero
(30_encoding.md R51, R55). -/
theorem decode_formatR_of_row {op : BitVec 8} {rd ra rb re : Fin 8} (ud ua ub ue : Bool) {i : Instr}
    (hrow : decode (formatR op rd ra rb re) = accept (formatR op rd ra rb re) (.r ud ua ub ue) i)
    (hun : unusedZero (formatR op rd ra rb re) (.r ud ua ub ue) = true) (hwf : i.wf = true) :
    decode (formatR op rd ra rb re) = .ok i :=
  hrow.trans ((accept_eq_ok_iff _ _ _ _).mpr ⟨reservedZero_formatR .., hun, hwf, rfl⟩)

theorem decode_fzero_word (d : FReg) : decode (formatR 0x10 d 0 0 0) = .ok (.fzero d) :=
  decode_formatR_of_row true false false false (by simp [decode, rdOf]) (by simp [unusedZero]) rfl

theorem decode_fone_word (d : FReg) : decode (formatR 0x11 d 0 0 0) = .ok (.fone d) :=
  decode_formatR_of_row true false false false (by simp [decode, rdOf]) (by simp [unusedZero]) rfl

theorem decode_fadd_word (d a b : FReg) : decode (formatR 0x12 d a b 0) = .ok (.fadd d a b) :=
  decode_formatR_of_row true true true false (by simp [decode, rdOf, raOf, rbOf]) (by simp [unusedZero]) rfl

theorem decode_fneg_word (d a : FReg) : decode (formatR 0x14 d a 0 0) = .ok (.fneg d a) :=
  decode_formatR_of_row true true false false (by simp [decode, rdOf, raOf]) (by simp [unusedZero]) rfl

theorem decode_pneg_word (d a : PReg) : decode (formatR 0x24 d a 0 0) = .ok (.pneg d a) :=
  decode_formatR_of_row true true false false (by simp [decode, rdOf, raOf]) (by simp [unusedZero]) rfl

theorem decode_fdeg_word (a : FReg) : decode (formatR 0x18 0 a 0 0) = .ok (.fdeg a) :=
  decode_formatR_of_row false true false false (by simp [decode, raOf]) (by simp [unusedZero]) rfl

theorem decode_fbit_word (a : FReg) (n : Imm16) : decode (formatI 0x19 0 a n) = .ok (.fbit a n) := by
  have hrow : decode (formatI 0x19 0 a n) = accept (formatI 0x19 0 a n) (.i false true) (.fbit a n) := by
    simp [decode, raOf]
  rw [hrow, accept_eq_ok_iff]
  exact ⟨reservedZero_formatI .., by simp [unusedZero], rfl, rfl⟩

/-! ### The states the commands end in -/

section Exec

variable (d a b : FReg) (s : State)

theorem exec_defmod :
    exec .defmod s = .next { s with regs := { s.regs with modsub := Config.defaultC s.width, status := 0 } } := rfl

theorem exec_fzero :
    exec (.fzero d) s = .next { s with regs := { s.regs with f := s.regs.f.set d 0, status := 0 } } := rfl

theorem exec_fone :
    exec (.fone d) s = .next { s with regs := { s.regs with f := s.regs.f.set d 1, status := 0 } } := rfl

theorem exec_fadd : exec (.fadd d a b) s =
    .next { s with regs := { s.regs with f := s.regs.f.set d (s.regs.f[a] ^^^ s.regs.f[b]), status := 0 } } := rfl

theorem exec_fneg :
    exec (.fneg d a) s = .next { s with regs := { s.regs with f := s.regs.f.set d s.regs.f[a], status := 0 } } := rfl

theorem exec_pneg (d a : PReg) :
    exec (.pneg d a) s = .next { s with regs := { s.regs with p := s.regs.p.set d s.regs.p[a], status := 0 } } := rfl

/-- FDEG changes RES, to the degree in two's complement, and STATUS, to OK. -/
theorem exec_fdeg : exec (.fdeg a) s = .next { s with regs := { s.regs with
    res := resOfDegree s.width.bits s.regs.f[a].toNat (fdeg s.regs.f[a]), status := 0 } } := rfl

/-- FBIT changes RES, to what `fbit` reads, and STATUS, to OK. -/
theorem exec_fbit (n : Imm16) : exec (.fbit a n) s = .next { s with regs := { s.regs with
    res := if fbit s.regs.f[a] n.toNat then 1 else 0, status := 0 } } := rfl

end Exec

/-! ### Constants, sum and copies -/

/-- Settles O25: the word is the encoding of DEFMOD, and the table of 10_state.md R12 is `defaultC`. -/
theorem defmodRestoresTheBuiltInConstant : Obligations.DefmodRestoresTheBuiltInConstant :=
  ⟨by decide, by decide, exec_defmod, rfl, rfl, rfl, rfl, rfl⟩

/-- Settles O26: the worked words are the format R words of rd 5 and rd 0. -/
theorem fzeroFoneWriteTheConstants : Obligations.FzeroFoneWriteTheConstants := by
  have hzero : formatR 0x10 5 0 0 0 = 0x10A00000 := by decide
  have hone : formatR 0x11 0 0 0 0 = 0x11000000 := by decide
  exact ⟨fun d s => ⟨decode_fzero_word d, decode_fone_word d, exec_fzero d s, exec_fone d s⟩,
    hzero ▸ decode_fzero_word 5, hone ▸ decode_fone_word 0⟩

/-- Settles O27: a register added to itself is `x ^^^ x`, which is 0. -/
theorem faddWritesTheXor : Obligations.FaddWritesTheXor := by
  refine ⟨fun d a b s => ⟨decode_fadd_word d a b, exec_fadd d a b s, ?_⟩, by decide⟩
  rw [exec_fadd, BitVec.xor_self]; rfl

/-- Settles O28: writing a buffer's own content back to it keeps every buffer. -/
theorem negationsCopyTheSource : Obligations.NegationsCopyTheSource := by
  refine fun d a s => ⟨decode_fneg_word d a, decode_pneg_word d a, exec_fneg d a s, exec_pneg s d a, ?_⟩
  have hself : s.regs.p.set d s.regs.p[d] = s.regs.p := Vector.set_getElem_self d.isLt
  rw [exec_pneg, hself]

/-! ### The degree of a word -/

/-- The degree is the index of the highest set bit (00_scope.md R7). -/
theorem deg_eq_of_highest_bit {n i : Nat} (hi : n.testBit i = true) (habove : ∀ j, i < j → n.testBit j = false) :
    deg n = i := by
  have hlow : 2 ^ i ≤ n := Nat.ge_two_pow_of_testBit hi
  have hhigh : n < 2 ^ (i + 1) := Nat.lt_pow_two_of_testBit n fun j hj => habove j hj
  have hne : n ≠ 0 := by rintro rfl; simp at hi
  rw [deg, if_neg hne, (Nat.log2_eq_iff hne).mpr ⟨hlow, hhigh⟩]

/-- The degree of a word whose highest set bit is bit `i` (42_field.md R132). -/
theorem fdeg_eq_of_highest_bit {w i : Nat} {x : Word w} (hi : x.getLsbD i = true)
    (habove : ∀ j, i < j → x.getLsbD j = false) : fdeg x = i :=
  deg_eq_of_highest_bit hi habove

@[simp] theorem fdeg_zero (w : Nat) : fdeg (0 : Word w) = -1 := by simp [fdeg, deg]

/-- RES holds -1 as the word of ones (10_state.md R13). -/
theorem resOfDegree_neg_one (w value : Nat) : resOfDegree w value (-1) = 0xFFFFFFFF := rfl

/-- RES holds a degree that fits as the number it is (10_state.md R13). -/
theorem resOfDegree_natCast (w value : Nat) {i : Nat} (hi : i < 2 ^ 31) :
    resOfDegree w value i = BitVec.ofNat 32 i := by
  have hlt : (i : Int) < 2 ^ 31 := by exact_mod_cast hi
  rw [resOfDegree, if_pos hlt, BitVec.ofInt_natCast]

/-- Settles O36: a degree below W fits RES, since W is at most 128. -/
theorem fdegWritesTheDegree : Obligations.FdegWritesTheDegree := by
  refine ⟨fun a s => ⟨decode_fdeg_word a, fun hzero => ?_, fun i hw hi habove => ?_⟩, by decide⟩
  · rw [exec_fdeg, hzero, fdeg_zero, resOfDegree_neg_one]
  · have hfits : i < 2 ^ 31 := by have := bits_le_data s.width; omega
    rw [exec_fdeg, fdeg_eq_of_highest_bit hi habove, resOfDegree_natCast _ _ hfits]

/-! ### The bit test of a word -/

/-- From the width up every bit reads 0 (42_field.md R133). -/
theorem fbit_of_width_le {w idx : Nat} (x : Word w) (h : w ≤ idx) : fbit x idx = false :=
  BitVec.getLsbD_of_ge x idx h

/-- Settles O37: below W the bit read is the word's own, from W up it is 0. -/
theorem fbitWritesTheBit : Obligations.FbitWritesTheBit := by
  refine ⟨fun a n s => ⟨decode_fbit_word a n, fun _ => exec_fbit a s n, fun hn => ?_⟩, by decide⟩
  rw [exec_fbit, fbit_of_width_le _ hn]; rfl

end Sys2Proof.Machine
end

section
/-! PROOF. How a command ends (spec/60_exceptions.md R170 to R173): it completes, or it raises a failure kind that R170
lists for it. Said once for all 27 commands (`exec_ends`); what a failure leaves unchanged and which commands never fail
both follow. -/

namespace Sys2Proof.Machine

/-! ### The two ends of a command -/

/-- Command `i` may raise `k` in `s`: IllegalCommand exactly in the forms of 30_encoding.md R58 and R59, in the others
only a kind that 60_exceptions.md R170 lists for the command, and CapacityExceeded only with LMAX bounded. -/
structure MayRaise (i : Instr) (s : State) (k : Failure) : Prop where
  illegal_iff : k = .illegalCommand ↔ i.wf = false
  listed : i.wf = true → failureCode k ∈ (effects i).outcomes
  bounded : k = .capacityExceeded → s.lmax ≠ none

/-- `o` is a next state in which command `i`, started in `s`, has completed or has raised a kind it may raise. -/
def CompletesOrRaises (i : Instr) (s : State) (o : Host.Outcome State Fault Refusal) : Prop :=
  (∃ r, o = .next (s.complete r)) ∨ ∃ k, MayRaise i s k ∧ o = .next (s.raise k)

section Ends

variable {i : Instr} {s : State}

theorem completesOrRaises_complete (r : Regs s.width.bits) : CompletesOrRaises i s (.next (s.complete r)) :=
  .inl ⟨r, rfl⟩

/-- A legal form may raise a failure of its operands that R170 lists for it. -/
theorem mayRaise_of_listed {k : Failure} (hwf : i.wf = true) (hk : k ≠ .illegalCommand)
    (hlisted : failureCode k ∈ (effects i).outcomes) (hbounded : k = .capacityExceeded → s.lmax ≠ none) :
    MayRaise i s k where
  illegal_iff := by simp [hwf, hk]
  listed _ := hlisted
  bounded := hbounded

/-- A legal form that refuses a zero and else completes (60_exceptions.md R170, codes 1 and 2). -/
theorem completesOrRaises_zeroCheck {c : Prop} [Decidable c] {k : Failure} {r : Regs s.width.bits}
    (hwf : i.wf = true) (hk : k ∈ [Failure.divisionByZero, .inversionOfZero])
    (hlisted : failureCode k ∈ (effects i).outcomes) :
    CompletesOrRaises i s (if c then .next (s.raise k) else .next (s.complete r)) := by
  split
  case isTrue =>
    have hnill : k ≠ .illegalCommand := by rintro rfl; simp at hk
    have hncap : k ≠ .capacityExceeded := by rintro rfl; simp at hk
    exact .inr ⟨k, mayRaise_of_listed hwf hnill hlisted fun hcap => absurd hcap hncap, rfl⟩
  case isFalse => exact completesOrRaises_complete r

/-- A command whose operand constraint is `a ≠ b` raises IllegalCommand when they are equal, and is else a legal form
(30_encoding.md R58, R59). -/
theorem completesOrRaises_operandCheck {a b : Fin 8} {o : Host.Outcome State Fault Refusal} (hwf : i.wf = (a != b))
    (hrest : i.wf = true → CompletesOrRaises i s o) :
    CompletesOrRaises i s (if a = b then .next (s.raise .illegalCommand) else o) := by
  split
  case isTrue hab =>
    have hill : i.wf = false := by simp [hwf, hab]
    exact .inr ⟨.illegalCommand, ⟨by simp [hill], fun h => by simp [hill] at h, nofun⟩, rfl⟩
  case isFalse hab => exact hrest (by simp [hwf, hab])

/-- A capacity-checked write raises only CapacityExceeded, and that only with LMAX bounded (60_exceptions.md R175). -/
theorem completesOrRaises_store (d : PReg) (q : Seq s.width.bits) (hwf : i.wf = true)
    (hlisted : failureCode .capacityExceeded ∈ (effects i).outcomes) :
    CompletesOrRaises i s (.next (s.store d q)) := by
  obtain ⟨-, hstore⟩ | ⟨hfull, hstore⟩ := s.store_cases d q
  · exact .inl ⟨_, congrArg _ hstore⟩
  · obtain ⟨l, hl, -⟩ := (s.not_fits_iff _).mp hfull
    have hbounded : s.lmax ≠ none := by simp [hl]
    exact .inr ⟨_, mayRaise_of_listed hwf (by decide) hlisted fun _ => hbounded, congrArg _ hstore⟩

end Ends

/-- Every command completes or raises a kind it may raise: the commands with a zero to refuse, those with operands to
compare, and those with a capacity to check, one by one; the others complete. -/
theorem exec_ends (i : Instr) (s : State) : CompletesOrRaises i s (exec i s) := by
  cases i
  case finv rd ra => exact completesOrRaises_zeroCheck rfl (by decide) (by simp [effects, failureCode])
  case fginv rd ra => exact completesOrRaises_zeroCheck rfl (by decide) (by simp [effects, failureCode])
  case fdiv rd re ra rb =>
    exact completesOrRaises_operandCheck rfl fun hwf =>
      completesOrRaises_zeroCheck hwf (by decide) (by simp [effects, failureCode])
  case fmdiv rd re ra =>
    exact completesOrRaises_operandCheck rfl fun hwf =>
      completesOrRaises_zeroCheck hwf (by decide) (by simp [effects, failureCode])
  case pdiv rd re ra rb =>
    exact completesOrRaises_operandCheck rfl fun hwf =>
      completesOrRaises_zeroCheck hwf (by decide) (by simp [effects, failureCode])
  case paddi rd ra => exact completesOrRaises_operandCheck rfl fun _ => completesOrRaises_complete _
  case pmul rd ra rb => exact completesOrRaises_store rd _ rfl (by simp [effects, failureCode])
  case pshl1 rd => exact completesOrRaises_store rd _ rfl (by simp [effects, failureCode])
  case pshl rd imm => exact completesOrRaises_store rd _ rfl (by simp [effects, failureCode])
  all_goals exact completesOrRaises_complete _

/-! ### What a failure leaves unchanged -/

/-- A command that leaves a non-zero STATUS has raised a failure, not completed. -/
theorem exists_eq_raise_of_exec {i : Instr} {s t : State} (h : exec i s = .next t) (hfail : t.regs.status ≠ 0) :
    ∃ k, t = s.raise k := by
  obtain ⟨r, hr⟩ | ⟨k, -, hk⟩ := exec_ends i s
  · obtain rfl : t = s.complete r := Host.Outcome.next.inj (h.symm.trans hr)
    exact absurd rfl hfail
  · exact ⟨k, Host.Outcome.next.inj (h.symm.trans hk)⟩

/-- The same for a command word, legal or not: issuing it raised a failure, whose code it handed back. -/
theorem State.exists_eq_raise_of_issue {s t : State} {cw : CommandWord} (h : s.issue cw = .next t)
    (hfail : t.regs.status ≠ 0) : ∃ k, t = (s.raise k).respond (.outcome (failureCode k)) := by
  obtain ⟨-, -, hill⟩ | ⟨i, -, ⟨u, hu, hissue⟩ | ⟨r, -, -⟩ | ⟨r, -, hissue⟩⟩ := s.issue_cases cw
  · exact ⟨.illegalCommand, Host.Outcome.next.inj (h.symm.trans hill)⟩
  · obtain rfl := Host.Outcome.next.inj (h.symm.trans hissue)
    obtain ⟨k, rfl⟩ := exists_eq_raise_of_exec hu hfail
    exact ⟨k, rfl⟩
  · cases r
  · rw [hissue] at h; cases h

/-- Settles O16: a failure is a `raise`, which writes STATUS alone. -/
theorem failuresWriteOnlyStatus : Obligations.FailuresWriteOnlyStatus := by
  refine ⟨fun i s t h hfail => ?_, fun cw s t h hfail => ?_⟩
  · obtain ⟨k, rfl⟩ := exists_eq_raise_of_exec h hfail
    exact s.raise_eq k
  · obtain ⟨k, rfl⟩ := State.exists_eq_raise_of_issue h hfail
    rfl

/-! ### Which commands never fail -/

/-- Every command can end OK (60_exceptions.md R170). -/
theorem zero_mem_outcomes (i : Instr) : 0 ∈ (effects i).outcomes := by cases i <;> simp [effects]

/-- A legal form gives a next state whose STATUS is one that R170 lists for it, and CapacityExceeded only with LMAX
bounded. -/
theorem exec_status_mem_outcomes {i : Instr} (hwf : i.wf = true) (s : State) :
    ∃ t, exec i s = .next t ∧ t.regs.status ∈ (effects i).outcomes ∧ (s.lmax = none → t.regs.status ≠ 4) := by
  obtain ⟨r, hr⟩ | ⟨k, hk, hraise⟩ := exec_ends i s
  · exact ⟨_, hr, zero_mem_outcomes i, fun _ => by simp [State.complete, codeOk]⟩
  · refine ⟨_, hraise, hk.listed hwf, fun hlmax hcode => hk.bounded ?_ hlmax⟩
    have hcode : failureCode k = 4 := hcode
    cases k
    case capacityExceeded => rfl
    all_goals exact absurd hcode (by decide)

/-- A legal form for which R170 lists no failure ends OK in every state. -/
theorem exec_ok_of_outcomes_eq {i : Instr} (hwf : i.wf = true) (hout : (effects i).outcomes = [0]) (s : State) :
    ∃ t, exec i s = .next t ∧ t.regs.status = 0 := by
  obtain ⟨t, ht, hmem, -⟩ := exec_status_mem_outcomes hwf s
  rw [hout, List.mem_singleton] at hmem
  exact ⟨t, ht, hmem⟩

/-- A legal form for which R170 lists CapacityExceeded alone ends with STATUS 0 or 4, and 0 with LMAX unbounded. -/
theorem exec_ok_or_full_of_outcomes_eq {i : Instr} (hwf : i.wf = true) (hout : (effects i).outcomes = [0, 4])
    (s : State) : ∃ t, exec i s = .next t ∧ (t.regs.status = 0 ∨ t.regs.status = 4) ∧
      (s.lmax = none → t.regs.status = 0) := by
  obtain ⟨t, ht, hmem, hbounded⟩ := exec_status_mem_outcomes hwf s
  rw [hout, List.mem_pair] at hmem
  exact ⟨t, ht, hmem, fun hlmax => hmem.resolve_right (hbounded hlmax)⟩

/-- Settles O18, by the outcomes R170 lists for each command. -/
theorem commandsThatNeverFail : Obligations.CommandsThatNeverFail := by
  refine fun s => ⟨fun i hi => ?_, fun d a b n i hi => ?_, fun d a hne => ?_, fun d a b n i hi => ?_⟩
  · obtain ⟨hwf, hout⟩ : i.wf = true ∧ (effects i).outcomes = [0] := by
      simp only [List.mem_append, List.mem_flatMap, List.mem_cons, List.not_mem_nil, or_false] at hi
      rcases hi with rfl | ⟨d, -, rfl | rfl | rfl | rfl | rfl | rfl | rfl | rfl | rfl⟩ <;> exact ⟨rfl, rfl⟩
    exact exec_ok_of_outcomes_eq hwf hout s
  · obtain ⟨hwf, hout⟩ : i.wf = true ∧ (effects i).outcomes = [0] := by
      simp only [List.mem_cons, List.not_mem_nil, or_false] at hi
      rcases hi with rfl | rfl | rfl | rfl | rfl | rfl | rfl | rfl <;> exact ⟨rfl, rfl⟩
    exact exec_ok_of_outcomes_eq hwf hout s
  · exact exec_ok_of_outcomes_eq (by simp [Instr.wf, hne]) rfl s
  · obtain ⟨hwf, hout⟩ : i.wf = true ∧ (effects i).outcomes = [0, 4] := by
      simp only [List.mem_cons, List.not_mem_nil, or_false] at hi
      rcases hi with rfl | rfl | rfl <;> exact ⟨rfl, rfl⟩
    exact exec_ok_or_full_of_outcomes_eq hwf hout s

end Sys2Proof.Machine
end

section
/-! PROOF. The decoder against the encoder and against the opcode table's rows (spec/30_encoding.md R50 to R62).

Which format a command has and which row it is of are functions of its opcode (`formatOf`, `tableRow_eq`), so the 27
commands are gone through once for each and the round trips and the rows are argued on the format. -/

namespace Sys2Proof.Machine

/-! ### Encoded words -/

/-- The opcode of an encoded word is one of the table. -/
theorem opField_encode_mem (i : Instr) : opField (encode i) ∈ opcodes := by
  cases i <;> simp [encode, opcodes]

/-- The decoder reads from an encoded word the command it encodes, and has the format and the operands left to check.
-/
theorem decode_encode_eq_accept (i : Instr) :
    decode (encode i) = accept (encode i) (formatOf (opField (encode i))) i := by
  cases i <;> simp only [encode, decode, opField_formatR, opField_formatI, rdOf, raOf, rbOf, reOf, rdField_formatR,
    raField_formatR, rbField_formatR, reField_formatR, rdField_formatI, raField_formatI, immField_formatI,
    regOf_ofFin] <;> rfl

/-- An encoded word has its reserved bits and the fields its command does not use zero (30_encoding.md R51, R52). -/
theorem encode_zeroFields (i : Instr) :
    reservedZero (encode i) (formatOf (opField (encode i))) = true ∧
    unusedZero (encode i) (formatOf (opField (encode i))) = true := by
  cases i <;> simp [encode, formatOf, opcodesI, opcodesNoRd, opcodesNoRa, opcodesRb, opcodesRe, unusedZero]

theorem decode_encode {i : Instr} (hwf : i.wf = true) : decode (encode i) = .ok i := by
  obtain ⟨hres, hun⟩ := encode_zeroFields i
  rw [decode_encode_eq_accept, accept_eq_ok_iff]
  exact ⟨hres, hun, hwf, rfl⟩

/-- Settles O1, by the checks of the decoder all passing on an encoded word. -/
theorem decodeOfEncodeIsTheCommand : Obligations.DecodeOfEncodeIsTheCommand := fun _ hwf => decode_encode hwf

/-- Settles O2: an accepted word is made of its used fields alone. -/
theorem encodeOfDecodeIsTheWord : Obligations.EncodeOfDecodeIsTheWord := fun _ _ h => wf_and_encode_eq_of_decode h

/-- Settles O5: each word is the encoding of the command beside it. -/
theorem workedEncodingsDecode : Obligations.WorkedEncodingsDecode := by
  have decode_of_encode {cw : CommandWord} {i : Instr} (hcw : encode i = cw) (hwf : i.wf = true) :
      decode cw = .ok i := hcw ▸ decode_encode hwf
  exact ⟨decode_of_encode (by decide) rfl, decode_of_encode (by decide) rfl, decode_of_encode (by decide) rfl,
    decode_of_encode (by decide) rfl, decode_of_encode (by decide) rfl, decode_of_encode (by decide) rfl,
    decode_of_encode (by decide) rfl⟩

/-! ### The rows of the opcode table -/

/-- The mask bits of a register field: all of them where the command does not use it. -/
def unusedMask (used : Bool) : BitVec 3 := bif used then 0#3 else 7#3

/-- The mask of a row of the given format: opcode, reserved bits and unused fields (30_encoding.md R55). -/
def maskOf : Format → CommandWord
  | .r rd ra rb re => 0xFF#8 ++ unusedMask rd ++ unusedMask ra ++ unusedMask rb ++ unusedMask re ++ 0xFFF#12
  | .i rd ra => 0xFF#8 ++ unusedMask rd ++ unusedMask ra ++ 3#2 ++ 0#16

/-- The row of a command is that of its opcode and its format. -/
theorem tableRow_eq (i : Instr) :
    tableRow i = (opField (encode i) ++ 0#24, maskOf (formatOf (opField (encode i)))) := by
  cases i <;> simp only [encode, opField_formatR, opField_formatI] <;> rfl

theorem field_and_unusedMask (used : Bool) (r : Fin 8) :
    (BitVec.ofFin (bif used then r else 0) : BitVec 3) &&& unusedMask used = 0#3 := by
  cases used <;> simp [unusedMask]

/-- The zeros below an opcode, field by field (30_encoding.md R51, R52). -/
theorem append_zeroFields (op : BitVec 8) :
    (op ++ 0#3 ++ 0#3 ++ 0#3 ++ 0#3 ++ 0#12 : CommandWord) = op ++ 0#24 ∧
    (op ++ 0#3 ++ 0#3 ++ 0#2 ++ 0#16 : CommandWord) = op ++ 0#24 := by
  constructor <;> apply BitVec.eq_of_toNat_eq <;> simp only [toNat_append_add] <;> simp [Nat.mul_assoc]

/-- A word made of its used fields alone has the opcode, and zero, under the mask of its format. -/
theorem usedFields_and_maskOf (cw : CommandWord) (fmt : Format) :
    usedFields cw fmt &&& maskOf fmt = opField cw ++ 0#24 := by
  have hop : opField cw &&& 0xFF#8 = opField cw := BitVec.and_allOnes
  cases fmt with
  | r rd ra rb re =>
    refine (Laws.formatR_and ..).trans ?_
    rw [field_and_unusedMask, field_and_unusedMask, field_and_unusedMask, field_and_unusedMask, hop,
      (append_zeroFields _).1]
  | i rd ra =>
    refine (Laws.formatI_and ..).trans ?_
    rw [field_and_unusedMask, field_and_unusedMask, BitVec.and_zero, hop, (append_zeroFields _).2]

/-- A field the mask covers is that of the match. -/
theorem field_eq_of_and_eq {cw mask m : CommandWord} (h : cw &&& mask = m) {start len : Nat}
    (hmask : mask.extractLsb' start len = BitVec.allOnes len) : cw.extractLsb' start len = m.extractLsb' start len := by
  rw [← h, BitVec.extractLsb'_and, hmask, BitVec.and_allOnes]

/-- What every mask covers: the opcode, the reserved bits, and the register fields its format does not use. -/
theorem maskOf_fields :
    (∀ fmt, (maskOf fmt).extractLsb' 24 8 = BitVec.allOnes 8) ∧
    (∀ rd ra rb re, (maskOf (.r rd ra rb re)).extractLsb' 0 12 = BitVec.allOnes 12 ∧
      (rd = false → (maskOf (.r rd ra rb re)).extractLsb' 21 3 = BitVec.allOnes 3) ∧
      (ra = false → (maskOf (.r rd ra rb re)).extractLsb' 18 3 = BitVec.allOnes 3) ∧
      (rb = false → (maskOf (.r rd ra rb re)).extractLsb' 15 3 = BitVec.allOnes 3) ∧
      (re = false → (maskOf (.r rd ra rb re)).extractLsb' 12 3 = BitVec.allOnes 3)) ∧
    (∀ rd ra, (maskOf (.i rd ra)).extractLsb' 16 2 = BitVec.allOnes 2 ∧
      (rd = false → (maskOf (.i rd ra)).extractLsb' 21 3 = BitVec.allOnes 3) ∧
      (ra = false → (maskOf (.i rd ra)).extractLsb' 18 3 = BitVec.allOnes 3)) := by
  refine ⟨fun fmt => ?_, by decide, by decide⟩
  cases fmt with
  | r rd ra rb re => revert rd ra rb re; decide
  | i rd ra => revert rd ra; decide

/-- A field below the opcode, of a word that is zero there under a mask that covers it, is zero. -/
theorem field_eq_zero_of_and_eq {cw mask : CommandWord} {op : BitVec 8} (h : cw &&& mask = op ++ 0#24)
    {start len : Nat} (hlow : start + len ≤ 24) (hmask : mask.extractLsb' start len = BitVec.allOnes len) :
    cw.extractLsb' start len = 0#len := by
  rw [field_eq_of_and_eq h hmask, BitVec.extractLsb'_append_eq_of_add_le hlow]
  simp

/-- A word is of a row exactly when it has the opcode, and zero in the reserved bits and the unused fields. -/
theorem and_maskOf_eq_iff (cw : CommandWord) (fmt : Format) (op : BitVec 8) :
    cw &&& maskOf fmt = op ++ 0#24 ↔
      opField cw = op ∧ reservedZero cw fmt = true ∧ unusedZero cw fmt = true := by
  constructor
  · intro h
    obtain ⟨hopcode, hr, hi⟩ := maskOf_fields
    refine ⟨?_, ?_⟩
    · rw [opField, field_eq_of_and_eq h (hopcode fmt), BitVec.extractLsb'_append_eq_of_le (by decide)]
      simp
    have unused {used : Bool} {start : Nat} (hlow : start + 3 ≤ 24)
        (hmask : used = false → (maskOf fmt).extractLsb' start 3 = BitVec.allOnes 3) :
        (used || cw.extractLsb' start 3 == 0#3) = true := by
      cases used with
      | true => rfl
      | false => simpa using field_eq_zero_of_and_eq h hlow (hmask rfl)
    cases fmt with
    | r rd ra rb re =>
      obtain ⟨hres, hrd, hra, hrb, hre⟩ := hr rd ra rb re
      simp only [reservedZero, unusedZero, Bool.and_eq_true, beq_iff_eq]
      exact ⟨field_eq_zero_of_and_eq h (by decide) hres, ⟨⟨unused (by decide) hrd, unused (by decide) hra⟩,
        unused (by decide) hrb⟩, unused (by decide) hre⟩
    | i rd ra =>
      obtain ⟨hres, hrd, hra⟩ := hi rd ra
      simp only [reservedZero, unusedZero, Bool.and_eq_true, beq_iff_eq]
      exact ⟨field_eq_zero_of_and_eq h (by decide) hres, unused (by decide) hrd, unused (by decide) hra⟩
  · rintro ⟨rfl, hres, hun⟩
    conv_lhs => rw [← usedFields_eq_self hres hun]
    exact usedFields_and_maskOf cw fmt

/-- A word is of the row of command `j` exactly when it has the opcode of `j` and zero where the format of `j` asks.
-/
theorem and_tableRow_eq_iff (cw : CommandWord) (j : Instr) :
    cw &&& (tableRow j).2 = (tableRow j).1 ↔ opField cw = opField (encode j) ∧
      reservedZero cw (formatOf (opField (encode j))) = true ∧
      unusedZero cw (formatOf (opField (encode j))) = true := by
  rw [tableRow_eq]; exact and_maskOf_eq_iff ..

/-- A word with its zeros in place and a command that violates its operand constraint is rejected for that. -/
theorem accept_of_not_wf {cw : CommandWord} {fmt : Format} {i : Instr} (hres : reservedZero cw fmt = true)
    (hun : unusedZero cw fmt = true) (hwf : i.wf = false) : accept cw fmt i = .error .operandConstraint := by
  simp [accept, hres, hun, hwf]

@[simp] theorem opField_usedFields (cw : CommandWord) (fmt : Format) : opField (usedFields cw fmt) = opField cw := by
  cases fmt <;> simp [usedFields]

/-- Settles O3: being of a row is having the opcode and passing the format's checks, so the operand constraint is the
only check left. -/
theorem decodedWordsMatchTheirTableRow : Obligations.DecodedWordsMatchTheirTableRow := by
  refine ⟨fun cw i h => ?_, fun cw j h => ?_⟩
  · obtain ⟨-, rfl⟩ := wf_and_encode_eq_of_decode h
    exact (and_tableRow_eq_iff _ i).mpr ⟨rfl, encode_zeroFields i⟩
  · obtain ⟨hop, hres, hun⟩ := (and_tableRow_eq_iff cw j).mp h
    obtain ⟨hout, -⟩ | ⟨-, i, hi⟩ := decode_cases cw
    · exact absurd (hop ▸ opField_encode_mem j) hout
    have hij : opField (encode i) = opField (encode j) := by rw [hi.encode_eq, opField_usedFields, hop]
    rw [hi.decode_eq, hop]
    cases hwf : i.wf with
    | true => exact .inl ⟨i, (accept_eq_ok_iff ..).mpr ⟨hres, hun, hwf, rfl⟩, by rw [tableRow_eq, tableRow_eq, hij]⟩
    | false => exact .inr (accept_of_not_wf hres hun hwf)

/-! ### Operand constraints -/

/-- The word of an ill-formed command is rejected for its operands. -/
theorem decode_encode_of_not_wf {i : Instr} (hwf : i.wf = false) : decode (encode i) = .error .operandConstraint := by
  obtain ⟨hres, hun⟩ := encode_zeroFields i
  rw [decode_encode_eq_accept, accept_of_not_wf hres hun hwf]

/-- An ill-formed command raises IllegalCommand (30_encoding.md R58, R59; log 7). -/
theorem exec_of_not_wf {i : Instr} (hwf : i.wf = false) (s : State) :
    exec i s = .next { s with regs := { s.regs with status := 3 } } := by
  cases i
  case fdiv rd re ra rb => exact if_pos (by simpa [Instr.wf] using hwf)
  case fmdiv rd re ra => exact if_pos (by simpa [Instr.wf] using hwf)
  case pdiv rd re ra rb => exact if_pos (by simpa [Instr.wf] using hwf)
  case paddi rd ra => exact if_pos (by simpa [Instr.wf] using hwf)
  all_goals cases hwf

/-- Settles O6: the three words are the encodings of the three commands. -/
theorem equalDestinationsAreIllegal : Obligations.EqualDestinationsAreIllegal := by
  refine fun d a b e => ⟨?_, ?_, ?_, fun s => ⟨?_, ?_, ?_⟩, fun hne => ⟨?_, ?_, ?_⟩⟩
  · exact decode_encode_of_not_wf (i := .fdiv d d a b) (by simp [Instr.wf])
  · exact decode_encode_of_not_wf (i := .fmdiv d d a) (by simp [Instr.wf])
  · exact decode_encode_of_not_wf (i := .pdiv d d a b) (by simp [Instr.wf])
  · exact exec_of_not_wf (by simp [Instr.wf]) s
  · exact exec_of_not_wf (by simp [Instr.wf]) s
  · exact exec_of_not_wf (by simp [Instr.wf]) s
  · exact decode_encode (i := .fdiv d e a b) (by simp [Instr.wf, hne])
  · exact decode_encode (i := .fmdiv d e a) (by simp [Instr.wf, hne])
  · exact decode_encode (i := .pdiv d e a b) (by simp [Instr.wf, hne])

end Sys2Proof.Machine
end

section
/-! PROOF. What a command, a transaction and a step leave unchanged (spec/10_state.md, spec/70_reset_and_hazards.md).

A command is shown once to write only what the table of effects lists for it (`exec_writes`); the frames of the word
and of the ring commands, and what a step can do to RES and MODSUB, follow. -/

namespace Sys2Proof.Machine

/-! ### A command writes what its row of the table of effects lists -/

/-- `r'` differs from `r` at most in STATUS and in what a command of effects `e` writes. -/
structure WritesOnly {w : Nat} (e : Effects) (r r' : Regs w) : Prop where
  f_eq : ∀ j : Fin 8, j ∉ e.fDests → r'.f[j] = r.f[j]
  p_eq : ∀ j : Fin 8, j ∉ e.pDests → r'.p[j] = r.p[j]
  modsub_eq : e.writesModsub = false → r'.modsub = r.modsub
  res_eq : e.writesRes = false → r'.res = r.res

namespace WritesOnly

variable {w : Nat} {e : Effects} {r r' : Regs w}

theorem refl (e : Effects) (r : Regs w) : WritesOnly e r r :=
  ⟨fun _ _ => rfl, fun _ _ => rfl, fun _ => rfl, fun _ => rfl⟩

theorem writeStatus (h : WritesOnly e r r') (code : BitVec 8) : WritesOnly e r (r'.writeStatus code) :=
  ⟨h.f_eq, h.p_eq, h.modsub_eq, h.res_eq⟩

theorem writeF {d : FReg} (h : WritesOnly e r r') (hd : d ∈ e.fDests) (v : Word w) :
    WritesOnly e r (r'.writeF d v) where
  f_eq j hj := (Regs.readF_writeF_ne r' d j v fun hjd => hj (hjd ▸ hd)).trans (h.f_eq j hj)
  p_eq := h.p_eq
  modsub_eq := h.modsub_eq
  res_eq := h.res_eq

theorem writeP {d : PReg} (h : WritesOnly e r r') (hd : d ∈ e.pDests) (q : Seq w) :
    WritesOnly e r (r'.writeP d q) where
  f_eq := h.f_eq
  p_eq j hj := (Regs.readP_writeP_ne r' d j q fun hjd => hj (hjd ▸ hd)).trans (h.p_eq j hj)
  modsub_eq := h.modsub_eq
  res_eq := h.res_eq

theorem writeModsub (h : WritesOnly e r r') (he : e.writesModsub = true) (c : Word w) :
    WritesOnly e r (r'.writeModsub c) :=
  ⟨h.f_eq, h.p_eq, fun hno => by simp [he] at hno, h.res_eq⟩

theorem writeRes (h : WritesOnly e r r') (he : e.writesRes = true) (v : BitVec 32) :
    WritesOnly e r (r'.writeRes v) :=
  ⟨h.f_eq, h.p_eq, h.modsub_eq, fun hno => by simp [he] at hno⟩

end WritesOnly

/-- `o` is a next state that differs from `s` in STATUS and in what a command of effects `e` writes. -/
def OutcomeWrites (e : Effects) (s : State) (o : Host.Outcome State Fault Refusal) : Prop :=
  ∃ r, o = .next { s with regs := r } ∧ WritesOnly e s.regs r

theorem outcomeWrites_complete {e : Effects} {s : State} {r : Regs s.width.bits} (h : WritesOnly e s.regs r) :
    OutcomeWrites e s (.next (s.complete r)) := ⟨_, rfl, h.writeStatus codeOk⟩

theorem outcomeWrites_raise (e : Effects) (s : State) (k : Failure) : OutcomeWrites e s (.next (s.raise k)) :=
  ⟨_, rfl, (WritesOnly.refl e s.regs).writeStatus (failureCode k)⟩

theorem outcomeWrites_store {e : Effects} {s : State} {d : PReg} (hd : d ∈ e.pDests) (q : Seq s.width.bits) :
    OutcomeWrites e s (.next (s.store d q)) := by
  obtain ⟨-, h⟩ | ⟨-, h⟩ := s.store_cases d q <;> rw [h]
  · exact outcomeWrites_complete ((WritesOnly.refl e s.regs).writeP hd q)
  · exact outcomeWrites_raise e s .capacityExceeded

theorem outcomeWrites_raiseIf {e : Effects} {s : State} {c : Prop} [Decidable c] {k : Failure}
    {o : Host.Outcome State Fault Refusal} (h : OutcomeWrites e s o) :
    OutcomeWrites e s (if c then .next (s.raise k) else o) := by
  split
  · exact outcomeWrites_raise e s k
  · exact h

/-- Every command writes only STATUS and what its row of the table of effects lists. -/
theorem exec_writes (i : Instr) (s : State) : OutcomeWrites (effects i) s (exec i s) := by
  have keep := WritesOnly.refl (effects i) s.regs
  cases i
  case setmod ra => exact outcomeWrites_complete (keep.writeModsub rfl _)
  case defmod => exact outcomeWrites_complete (keep.writeModsub rfl _)
  case fdeg ra => exact outcomeWrites_complete (keep.writeRes rfl _)
  case fbit ra imm => exact outcomeWrites_complete (keep.writeRes rfl _)
  case pdeg ra => exact outcomeWrites_complete (keep.writeRes rfl _)
  case pbit ra imm => exact outcomeWrites_complete (keep.writeRes rfl _)
  case finv rd ra => exact outcomeWrites_raiseIf (outcomeWrites_complete (keep.writeF (by simp [effects]) _))
  case fginv rd ra => exact outcomeWrites_raiseIf (outcomeWrites_complete (keep.writeF (by simp [effects]) _))
  case fdiv rd re ra rb =>
    exact outcomeWrites_raiseIf (outcomeWrites_raiseIf (outcomeWrites_complete
      ((keep.writeF (by simp [effects]) _).writeF (by simp [effects]) _)))
  case fmdiv rd re ra =>
    exact outcomeWrites_raiseIf (outcomeWrites_raiseIf (outcomeWrites_complete
      ((keep.writeF (by simp [effects]) _).writeF (by simp [effects]) _)))
  case pdiv rd re ra rb =>
    exact outcomeWrites_raiseIf (outcomeWrites_raiseIf (outcomeWrites_complete
      ((keep.writeP (by simp [effects]) _).writeP (by simp [effects]) _)))
  case paddi rd ra => exact outcomeWrites_raiseIf (outcomeWrites_complete (keep.writeP (by simp [effects]) _))
  case pmul rd ra rb => exact outcomeWrites_store (by simp [effects]) _
  case pshl1 rd => exact outcomeWrites_store (by simp [effects]) _
  case pshl rd imm => exact outcomeWrites_store (by simp [effects]) _
  case fzero | fone | fadd | fmul | fneg | fexp =>
    exact outcomeWrites_complete (keep.writeF (by simp [effects]) _)
  case pzero | pone | padd | pneg | pshr1 | pclean =>
    exact outcomeWrites_complete (keep.writeP (by simp [effects]) _)

/-- A word command has no buffer among its destinations; a ring command has no word register and not MODSUB. -/
theorem effects_of_ring (i : Instr) :
    ((effects i).ring = false → (effects i).pDests = []) ∧
    ((effects i).ring = true → (effects i).fDests = [] ∧ (effects i).writesModsub = false) := by
  cases i <;> simp [effects]

theorem vector_ext_fin {α : Type} {x y : Vector α 8} (h : ∀ j : Fin 8, x[j] = y[j]) : x = y :=
  Vector.ext fun j hj => h ⟨j, hj⟩

/-- Settles O19: a word command writes what its row lists, which is no buffer. -/
theorem wordCommandFrame : Obligations.WordCommandFrame := by
  intro i s hring
  obtain ⟨⟨f, p, modsub, res, status⟩, hexec, hw⟩ := exec_writes i s
  obtain rfl : p = s.regs.p := vector_ext_fin fun j => hw.p_eq j (by simp [(effects_of_ring i).1 hring])
  exact ⟨f, modsub, res, status, hexec, hw.f_eq, hw.modsub_eq, hw.res_eq⟩

/-- Settles O20: a ring command writes what its row lists, which is no word register and not MODSUB. -/
theorem ringCommandFrame : Obligations.RingCommandFrame := by
  intro i s hring
  obtain ⟨⟨f, p, modsub, res, status⟩, hexec, hw⟩ := exec_writes i s
  obtain ⟨hdests, hmodsub⟩ := (effects_of_ring i).2 hring
  obtain rfl : f = s.regs.f := vector_ext_fin fun j => hw.f_eq j (by simp [hdests])
  obtain rfl : modsub = s.regs.modsub := hw.modsub_eq hmodsub
  exact ⟨p, res, status, hexec, hw.p_eq, hw.res_eq⟩

/-- Settles O24: SETMOD is one write of MODSUB, and its word is the encoding of SETMOD f3. -/
theorem setmodLoadsModsub : Obligations.SetmodLoadsModsub := by
  have hword : encode (.setmod 3) = 0x010C0000 := by decide
  exact ⟨fun _ _ => rfl, hword ▸ decode_encode rfl⟩

/-! ### Outcomes -/

/-- STATUS after any command is one of the codes 0 to 4 (10_state.md R14). -/
theorem exec_status_le (i : Instr) {s t : State} (h : exec i s = .next t) : t.regs.status.toNat ≤ 4 := by
  obtain ⟨r, hr⟩ | ⟨k, -, hk⟩ := exec_ends i s
  · obtain rfl := Host.Outcome.next.inj (h.symm.trans hr)
    exact Nat.zero_le 4
  · obtain rfl := Host.Outcome.next.inj (h.symm.trans hk)
    show (failureCode k).toNat ≤ 4
    cases k <;> decide

/-- Settles O17: a legal form ends as R170 lists, and every end has a code of the table. -/
theorem outcomesAreTheListedOnes : Obligations.OutcomesAreTheListedOnes := by
  refine ⟨fun i s t hwf h => ?_, fun cw s t h => ?_⟩
  · obtain ⟨u, hu, hmem, -⟩ := exec_status_mem_outcomes hwf s
    obtain rfl := Host.Outcome.next.inj (h.symm.trans hu)
    exact hmem
  · obtain ⟨-, -, hill⟩ | ⟨i, -, ⟨u, hu, hissue⟩ | ⟨r, -, -⟩ | ⟨r, -, hissue⟩⟩ := s.issue_cases cw
    · obtain rfl := Host.Outcome.next.inj (h.symm.trans hill)
      show (failureCode .illegalCommand).toNat ≤ 4
      decide
    · obtain rfl := Host.Outcome.next.inj (h.symm.trans hissue)
      have hle := exec_status_le i hu
      exact hle
    · cases r
    · rw [hissue] at h; cases h

/-! ### Transactions and steps -/

/-- Issuing a word that decodes runs the command and hands back the new STATUS (20_memory.md R36). -/
theorem State.issue_of_decode {s t : State} {cw : CommandWord} {i : Instr} (hd : decode cw = .ok i)
    (he : exec i s = .next t) : s.issue cw = .next (t.respond (.outcome t.regs.status)) := by
  simp only [State.issue, hd, he]

/-- Issuing any word gives a next state in which STATUS and, if the word decodes, what its command writes have
changed, and one value has been handed back. -/
theorem State.issue_writes (s : State) (cw : CommandWord) : ∃ r a,
    s.issue cw = .next { s with regs := r, returned := s.returned ++ [a] } ∧
    ((∃ e, decode cw = .error e ∧ r = s.regs.writeStatus 3) ∨
      ∃ i, decode cw = .ok i ∧ exec i s = .next { s with regs := r } ∧ WritesOnly (effects i) s.regs r) := by
  cases hd : decode cw with
  | error e => exact ⟨_, _, s.issue_of_decode_error hd, .inl ⟨e, rfl, rfl⟩⟩
  | ok i =>
    obtain ⟨r, hexec, hw⟩ := exec_writes i s
    exact ⟨r, _, State.issue_of_decode hd hexec, .inr ⟨i, rfl, hexec, hw⟩⟩

/-- A port write keeps MODSUB, RES and STATUS (20_memory.md R32, R35). -/
theorem State.portWrite_writes (s : State) (sel : BitVec 8) (k : Nat) (v : PortData) :
    ∃ r, s.portWrite sel k v = { s with regs := r } ∧
      r.modsub = s.regs.modsub ∧ r.res = s.regs.res ∧ r.status = s.regs.status := by
  obtain ⟨i, -, h⟩ | ⟨i, -, h⟩ | ⟨i, -, h⟩ | ⟨-, h⟩ := s.portWrite_cases sel k v
  · exact ⟨_, h, rfl, rfl, rfl⟩
  · obtain ⟨-, h'⟩ | ⟨-, h'⟩ := s.writeLength_cases i (v.setWidth 32).toNat
    · exact ⟨_, h.trans h', rfl, rfl, rfl⟩
    · exact ⟨s.regs, h.trans h', rfl, rfl, rfl⟩
  · exact ⟨_, h, rfl, rfl, rfl⟩
  · exact ⟨s.regs, h, rfl, rfl, rfl⟩

/-- A transaction gives a next state of the same width and capacity with the same transactions still to come, and
hands a value back exactly when it is an Issue or a PortRead (70_reset_and_hazards.md R201). -/
theorem State.perform_hostSide (s : State) (t : Transaction) : ∃ r rs,
    s.perform t = .next { s with regs := r, returned := s.returned ++ rs } ∧
    rs.length = ([t].filter answers).length := by
  cases t with
  | issue cw =>
    obtain ⟨r, a, h, -⟩ := s.issue_writes cw
    exact ⟨r, [a], h, rfl⟩
  | portRead sel k => exact ⟨s.regs, [_], rfl, rfl⟩
  | portWrite sel k v =>
    obtain ⟨r, h, -⟩ := s.portWrite_writes sel k v
    exact ⟨r, [], by rw [State.perform, h, List.append_nil], rfl⟩
  | reset => exact ⟨resetRegs s.width, [], by rw [List.append_nil]; rfl, rfl⟩

/-- A step is idle, or performs the transaction pending first. -/
theorem step_cases (s : State) :
    (s.pending = [] ∧ step s = .next s) ∨
    ∃ t rest, s.pending = t :: rest ∧ step s = State.perform { s with pending := rest } t := by
  cases h : s.pending with
  | nil => exact .inl ⟨rfl, step_idle h⟩
  | cons t rest => exact .inr ⟨t, rest, rfl, step_pending h⟩

/-- Settles O9: idle or performing, a step gives a next state. -/
theorem everyStepAnswersANextState : Obligations.EveryStepAnswersANextState := by
  refine ⟨fun s => ?_, fun s => step_idle⟩
  obtain ⟨-, h⟩ | ⟨t, rest, -, h⟩ := step_cases s
  · exact ⟨s, h⟩
  · obtain ⟨r, rs, hperform, -⟩ := State.perform_hostSide { s with pending := rest } t
    exact ⟨_, h.trans hperform⟩

/-- Settles O11: a transaction changes registers and what the host was handed. -/
theorem stepKeepsTheInstance : Obligations.StepKeepsTheInstance := by
  intro s t hstep
  obtain ⟨-, h⟩ | ⟨tr, rest, -, h⟩ := step_cases s
  · obtain rfl := Host.Outcome.next.inj (hstep.symm.trans h)
    exact ⟨rfl, rfl⟩
  · obtain ⟨r, rs, hperform, -⟩ := State.perform_hostSide { s with pending := rest } tr
    obtain rfl := Host.Outcome.next.inj (hstep.symm.trans (h.trans hperform))
    exact ⟨rfl, rfl⟩

/-- A run whose first step answers a next state is the rest of the run from there. -/
theorem run_succ (M : Host.Core) {s t : M.State} (h : M.step s = .next t) (k : Nat) : M.run (k + 1) s = M.run k t := by
  simp only [Host.Core.run, h]

/-- Settles O10, by induction on the list: each step takes one transaction off it. -/
theorem everyHostListRunsToOneEnd : Obligations.EveryHostListRunsToOneEnd := by
  intro ts
  induction ts with
  | nil => exact fun s => ⟨{ s with pending := [] }, [], rfl, rfl, by simp, rfl⟩
  | cons t ts ih =>
    intro s
    obtain ⟨r, rs, hperform, hlen⟩ := State.perform_hostSide { s with pending := ts } t
    obtain ⟨u, rs', hrun, hpending, hreturned, hlen'⟩ := ih { s with regs := r, returned := s.returned ++ rs }
    have hstep : core.step { s with pending := t :: ts } =
        .next { s with regs := r, pending := ts, returned := s.returned ++ rs } :=
      (step_pending (s := { s with pending := t :: ts }) rfl).trans hperform
    refine ⟨u, rs ++ rs', ?_, hpending, by rw [hreturned, List.append_assoc], ?_⟩
    · exact (run_succ core hstep ts.length).trans hrun
    · rw [← List.singleton_append, List.filter_append, List.length_append, List.length_append, hlen, hlen']

/-- What a step does to the registers: it keeps RES and MODSUB, or performs a reset, or issues a word that decodes and
writes what the command writes. -/
theorem step_writes (s : State) : ∃ r rest rs, step s = .next { s with regs := r, pending := rest, returned := rs } ∧
    ((r.res = s.regs.res ∧ r.modsub = s.regs.modsub) ∨ s.pending = .reset :: rest ∨
      ∃ cw i, s.pending = .issue cw :: rest ∧ decode cw = .ok i ∧
        exec i { s with pending := rest } = .next { s with pending := rest, regs := r } ∧
        WritesOnly (effects i) s.regs r) := by
  obtain ⟨-, h⟩ | ⟨t, rest, hpending, h⟩ := step_cases s
  · exact ⟨s.regs, s.pending, s.returned, h, .inl ⟨rfl, rfl⟩⟩
  cases t with
  | reset => exact ⟨_, rest, _, h, .inr (.inl hpending)⟩
  | portRead sel k => exact ⟨_, rest, _, h, .inl ⟨rfl, rfl⟩⟩
  | portWrite sel k v =>
    obtain ⟨r, hwrite, hmodsub, hres, -⟩ := State.portWrite_writes { s with pending := rest } sel k v
    exact ⟨r, rest, _, h.trans (congrArg Host.Outcome.next hwrite), .inl ⟨hres, hmodsub⟩⟩
  | issue cw =>
    obtain ⟨r, a, hissue, hr⟩ := State.issue_writes { s with pending := rest } cw
    refine ⟨r, rest, _, h.trans hissue, ?_⟩
    obtain ⟨e, -, rfl⟩ | ⟨i, hd, hexec, hw⟩ := hr
    · exact .inl ⟨rfl, rfl⟩
    · exact .inr (.inr ⟨cw, i, hpending, hd, hexec, hw⟩)

/-- Settles O21: a failing command writes STATUS alone, and one that completes writes RES only if it is one of the
four. -/
theorem resChangesOnlyByItsFourCommands : Obligations.ResChangesOnlyByItsFourCommands := by
  intro s t hstep hres
  obtain ⟨r, rest, rs, h, ⟨hkeep, -⟩ | hreset | ⟨cw, i, hpending, hd, hexec, hw⟩⟩ := step_writes s
  all_goals obtain rfl := Host.Outcome.next.inj (hstep.symm.trans h)
  · exact absurd hkeep hres
  · exact ⟨rest, .inl hreset⟩
  · refine ⟨rest, .inr ⟨cw, i, hpending, hd, ?_, ?_⟩⟩
    · by_contra hno
      exact hres (hw.res_eq (by simpa using hno))
    · by_contra hfail
      obtain ⟨k, hk⟩ := exists_eq_raise_of_exec hexec hfail
      have hkeep := congrArg (fun u : State => u.regs.res) hk
      exact hres hkeep

/-- Settles O22: a command writes MODSUB only if it is SETMOD or DEFMOD. -/
theorem modsubChangesOnlyBySetmodDefmodReset : Obligations.ModsubChangesOnlyBySetmodDefmodReset := by
  intro s t hstep hmodsub
  obtain ⟨r, rest, rs, h, ⟨-, hkeep⟩ | hreset | ⟨cw, i, hpending, hd, -, hw⟩⟩ := step_writes s
  all_goals obtain rfl := Host.Outcome.next.inj (hstep.symm.trans h)
  · exact absurd (congrArg BitVec.toNat hkeep) hmodsub
  · exact ⟨rest, .inl hreset⟩
  · refine ⟨rest, .inr ⟨cw, i, hpending, hd, ?_⟩⟩
    by_contra hno
    exact hmodsub (congrArg BitVec.toNat (hw.modsub_eq (by simpa using hno)))

/-! ### Issuing a word, reset -/

/-- All 32 bits of a table word are kept (log 18). -/
theorem tableWord_toNat (cw : CommandWord) : tableWord 32 cw.toNat = cw := by
  rw [tableWord, Nat.mod_eq_of_lt cw.isLt, BitVec.ofNat_toNat, BitVec.setWidth_eq]

/-- Settles O8: the step performs the Issue pending first. -/
theorem stepIssuesTheDecodedCommand : Obligations.StepIssuesTheDecodedCommand := by
  refine ⟨fun s t cw rest i hpending hd he => ?_, fun s t i hwf he => ?_⟩
  · exact (step_pending hpending).trans (State.issue_of_decode hd he)
  · rw [step_withFetchWord, tableWord_toNat]
    exact State.issue_of_decode (decode_encode hwf) he

/-- Settles O14, by reading the reset state off and performing the one transaction offered. -/
theorem resetLeavesTheStatedValues : Obligations.ResetLeavesTheStatedValues := by
  refine ⟨fun width lmax => ⟨fun i => ⟨readF_resetRegs width i, readP_resetRegs width i⟩, rfl, rfl, step_idle rfl,
    fun cw => ?_⟩, fun lmax => ⟨rfl, rfl, rfl, rfl, rfl⟩⟩
  rw [step_withFetchWord, tableWord_toNat]

/-- Settles O15: the step performs the reset pending first. -/
theorem resetTransactionRestoresEveryRegister : Obligations.ResetTransactionRestoresEveryRegister :=
  fun _ _ hpending => step_pending hpending

/-! ### The sources of a command determine its results -/

/-- Two register states agree on the word registers `fs` and the buffers `ps`. -/
structure AgreeOn {w : Nat} (fs ps : List (Fin 8)) (r r2 : Regs w) : Prop where
  f_eq : ∀ j ∈ fs, r2.f[j] = r.f[j]
  p_eq : ∀ j ∈ ps, r2.p[j] = r.p[j]

namespace AgreeOn

variable {w : Nat} {fs ps : List (Fin 8)} {r r2 : Regs w}

theorem nil (r r2 : Regs w) : AgreeOn [] [] r r2 := ⟨nofun, nofun⟩

/-- After the same write of a word register they agree on it too. -/
theorem writeF (h : AgreeOn fs ps r r2) (d : FReg) {v v2 : Word w} (hv : v2 = v) :
    AgreeOn (fs ++ [d]) ps (r.writeF d v) (r2.writeF d v2) := by
  subst hv
  refine ⟨fun j hj => ?_, h.p_eq⟩
  by_cases hjd : j = d
  · subst hjd
    exact (Regs.readF_writeF r2 j _).trans (Regs.readF_writeF r j _).symm
  · have hmem : j ∈ fs := by simpa [hjd] using hj
    exact ((Regs.readF_writeF_ne r2 d j _ hjd).trans (h.f_eq j hmem)).trans (Regs.readF_writeF_ne r d j _ hjd).symm

/-- After the same write of a buffer they agree on it too. -/
theorem writeP (h : AgreeOn fs ps r r2) (d : PReg) {q q2 : Seq w} (hq : q2 = q) :
    AgreeOn fs (ps ++ [d]) (r.writeP d q) (r2.writeP d q2) := by
  subst hq
  refine ⟨h.f_eq, fun j hj => ?_⟩
  by_cases hjd : j = d
  · subst hjd
    exact (Regs.readP_writeP r2 j _).trans (Regs.readP_writeP r j _).symm
  · have hmem : j ∈ ps := by simpa [hjd] using hj
    exact ((Regs.readP_writeP_ne r2 d j _ hjd).trans (h.p_eq j hmem)).trans (Regs.readP_writeP_ne r d j _ hjd).symm

end AgreeOn

/-- `r` and `r2` have the same results, as far as a command of effects `e` writes them. -/
structure SameResults {w : Nat} (e : Effects) (r r2 : Regs w) : Prop extends AgreeOn e.fDests e.pDests r r2 where
  res_eq : e.writesRes = true → r2.res = r.res
  modsub_eq : e.writesModsub = true → r2.modsub = r.modsub

/-- Two outcomes, from `s` and from `s` with other registers, have the same code and, when it is OK, the same
results. -/
def SameOutcome (e : Effects) (s : State) (o o2 : Host.Outcome State Fault Refusal) : Prop :=
  ∃ r r2 : Regs s.width.bits, o = .next { s with regs := r } ∧ o2 = .next { s with regs := r2 } ∧
    r2.status = r.status ∧ (r.status = 0 → SameResults e r r2)

section SameOutcome

variable {e : Effects} {s : State} {x : Regs s.width.bits}

theorem sameOutcome_complete {r r2 : Regs s.width.bits} (h : SameResults e r r2) :
    SameOutcome e s (.next (s.complete r)) (.next (State.complete { s with regs := x } r2)) :=
  ⟨_, _, rfl, rfl, rfl, fun _ => ⟨⟨h.f_eq, h.p_eq⟩, h.res_eq, h.modsub_eq⟩⟩

theorem sameOutcome_raise (k : Failure) :
    SameOutcome e s (.next (s.raise k)) (.next (State.raise { s with regs := x } k)) := by
  have hk : failureCode k ≠ 0 := by cases k <;> decide
  exact ⟨_, _, rfl, rfl, rfl, fun h => absurd h hk⟩

theorem sameOutcome_raiseIf {c c2 : Prop} [Decidable c] [Decidable c2] {k : Failure}
    {o o2 : Host.Outcome State Fault Refusal} (hc : c2 ↔ c) (h : SameOutcome e s o o2) :
    SameOutcome e s (if c then .next (s.raise k) else o)
      (if c2 then .next (State.raise { s with regs := x } k) else o2) := by
  by_cases hcase : c
  · rw [if_pos hcase, if_pos (hc.mpr hcase)]; exact sameOutcome_raise k
  · rw [if_neg hcase, if_neg (mt hc.mp hcase)]; exact h

/-- The capacity check looks at LMAX and at the result alone. -/
theorem sameOutcome_store {d : PReg} {q q2 : Seq s.width.bits} (hq : q2 = q)
    (h : SameResults e (s.regs.writeP d q) (x.writeP d q)) :
    SameOutcome e s (.next (s.store d q)) (.next (State.store { s with regs := x } d q2)) := by
  subst hq
  have hfits : State.fits { s with regs := x } q2.length = s.fits q2.length := rfl
  rw [State.store, State.store, hfits]
  cases s.fits q2.length with
  | true => exact sameOutcome_complete h
  | false => exact sameOutcome_raise .capacityExceeded

end SameOutcome

/-- A command that writes neither RES nor MODSUB has the same results when its destinations agree. -/
theorem AgreeOn.sameResults {w : Nat} {e : Effects} {r r2 : Regs w} (h : AgreeOn e.fDests e.pDests r r2)
    (hres : e.writesRes = false) (hmodsub : e.writesModsub = false) : SameResults e r r2 :=
  ⟨h, fun hw => by simp [hres] at hw, fun hw => by simp [hmodsub] at hw⟩

/-- Run on two register states that agree on its sources, a command has the same outcome and the same results. -/
theorem exec_sameOutcome (i : Instr) (s : State) (x : Regs s.width.bits)
    (hf : ∀ j ∈ (effects i).fSources, x.readF j = s.regs.readF j)
    (hp : ∀ j ∈ (effects i).pSources, x.readP j = s.regs.readP j)
    (hm : (effects i).readsModsub = true → x.modsub = s.regs.modsub) :
    SameOutcome (effects i) s (exec i s) (exec i { s with regs := x }) := by
  have none := AgreeOn.nil s.regs x
  cases i
  case setmod ra => exact sameOutcome_complete ⟨.nil _ _, nofun, fun _ => hf ra (by simp [effects])⟩
  case defmod => exact sameOutcome_complete ⟨.nil _ _, nofun, fun _ => rfl⟩
  case fzero rd | fone rd => exact sameOutcome_complete ((none.writeF rd rfl).sameResults rfl rfl)
  case pzero rd | pone rd => exact sameOutcome_complete ((none.writeP rd rfl).sameResults rfl rfl)
  case fdeg ra | fbit ra _ =>
    have ha := hf ra (by simp [effects])
    exact sameOutcome_complete ⟨.nil _ _, fun _ => by simp only [Regs.writeRes_res, ha], nofun⟩
  case pdeg ra | pbit ra _ =>
    have ha := hp ra (by simp [effects])
    exact sameOutcome_complete ⟨.nil _ _, fun _ => by simp only [Regs.writeRes_res, ha], nofun⟩
  case fneg rd ra => exact sameOutcome_complete ((none.writeF rd (hf ra (by simp [effects]))).sameResults rfl rfl)
  case pneg rd ra => exact sameOutcome_complete ((none.writeP rd (hp ra (by simp [effects]))).sameResults rfl rfl)
  case fadd rd ra rb =>
    have ha := hf ra (by simp [effects])
    have hb := hf rb (by simp [effects])
    exact sameOutcome_complete ((none.writeF rd (by rw [ha, hb])).sameResults rfl rfl)
  case fmul rd ra rb | fexp rd ra rb =>
    have ha := hf ra (by simp [effects])
    have hb := hf rb (by simp [effects])
    exact sameOutcome_complete ((none.writeF rd (by rw [ha, hb, hm rfl])).sameResults rfl rfl)
  case finv rd ra | fginv rd ra =>
    have ha := hf ra (by simp [effects])
    exact sameOutcome_raiseIf (by rw [ha]) (sameOutcome_complete
      ((none.writeF rd (by rw [ha, hm rfl])).sameResults rfl rfl))
  case fdiv rd re ra rb =>
    have ha := hf ra (by simp [effects])
    have hb := hf rb (by simp [effects])
    exact sameOutcome_raiseIf Iff.rfl (sameOutcome_raiseIf (by rw [hb]) (sameOutcome_complete
      (((none.writeF rd (by rw [ha, hb])).writeF re (by rw [ha, hb])).sameResults rfl rfl)))
  case fmdiv rd re ra =>
    have ha := hf ra (by simp [effects])
    exact sameOutcome_raiseIf Iff.rfl (sameOutcome_raiseIf (by rw [ha]) (sameOutcome_complete
      (((none.writeF rd (by rw [ha, hm rfl])).writeF re (by rw [ha, hm rfl])).sameResults rfl rfl)))
  case pdiv rd re ra rb =>
    have ha := hp ra (by simp [effects])
    have hb := hp rb (by simp [effects])
    exact sameOutcome_raiseIf Iff.rfl (sameOutcome_raiseIf (by rw [hb]) (sameOutcome_complete
      (((none.writeP rd (by rw [ha, hb])).writeP re (by rw [ha, hb])).sameResults rfl rfl)))
  case padd rd ra rb =>
    have ha := hp ra (by simp [effects])
    have hb := hp rb (by simp [effects])
    exact sameOutcome_complete ((none.writeP rd (by rw [ha, hb])).sameResults rfl rfl)
  case paddi rd ra =>
    have hd := hp rd (by simp [effects])
    have ha := hp ra (by simp [effects])
    exact sameOutcome_raiseIf Iff.rfl (sameOutcome_complete ((none.writeP rd (by rw [hd, ha])).sameResults rfl rfl))
  case pmul rd ra rb =>
    have ha := hp ra (by simp [effects])
    have hb := hp rb (by simp [effects])
    exact sameOutcome_store (by rw [ha, hb]) ((none.writeP rd rfl).sameResults rfl rfl)
  case pshl1 rd | pshl rd _ =>
    have hd := hp rd (by simp [effects])
    exact sameOutcome_store (by rw [hd]) ((none.writeP rd rfl).sameResults rfl rfl)
  case pshr1 rd | pclean rd =>
    have hd := hp rd (by simp [effects])
    exact sameOutcome_complete ((none.writeP rd (by rw [hd])).sameResults rfl rfl)

/-- Settles O23: same outcome, and same results wherever the command writes. -/
theorem namedSourcesDetermineTheResult : Obligations.NamedSourcesDetermineTheResult := by
  intro i s x hf hp hm
  obtain ⟨r, r2, hr, hr2, hstatus, hsame⟩ := exec_sameOutcome i s x hf hp hm
  refine ⟨r, r2, hr, hr2, hstatus, fun hok => ?_⟩
  obtain ⟨⟨hfd, hpd⟩, hres, hmodsub⟩ := hsame hok
  exact ⟨hfd, hpd, hres, hmodsub⟩

end Sys2Proof.Machine
end

section
/-! PROOF. The register port (spec/20_memory.md R31 to R35): what each selector names, and HostLoad by induction over
the words still to be written. -/

namespace Sys2Proof.Machine

/-! ### The selector map -/

theorem portTarget_word : ∀ i : Fin 8, portTarget (BitVec.ofNat 8 i) = .word i := by decide

theorem portTarget_length : ∀ i : Fin 8, portTarget (BitVec.ofNat 8 (0x10 + i)) = .length i := by decide

theorem portTarget_bufferWord : ∀ i : Fin 8, portTarget (BitVec.ofNat 8 (0x20 + i)) = .bufferWord i := by decide

/-- The selectors 0x08 to 0x0F, 0x18 to 0x1F and from 0x28 up name no register that a write reaches; of these only
0x08, 0x09 and 0x0A name a register at all (20_memory.md R32). -/
theorem portTarget_unwritable : ∀ sel : BitVec 8,
    (0x07 < sel.toNat ∧ sel.toNat < 0x10) ∨ (0x17 < sel.toNat ∧ sel.toNat < 0x20) ∨ 0x27 < sel.toNat →
    portTarget sel ∈ [PortTarget.modsub, .status, .res, .reserved] ∧
      (0x0A < sel.toNat → portTarget sel = .reserved) := by decide

/-! ### Reads -/

/-- A length that fits the port's 32 bits is read as it is (20_memory.md R32). -/
theorem setWidth_portLength {n : Nat} (hn : n < 2 ^ 32) : (portLength n).setWidth 128 = BitVec.ofNat 128 n := by
  rw [portLength, if_pos hn]
  apply BitVec.eq_of_toNat_eq
  simp only [BitVec.toNat_setWidth, BitVec.toNat_ofNat]
  omega

/-- A write to a selector that no write reaches changes nothing. -/
theorem State.portWrite_unwritable (s : State) {sel : BitVec 8} (k : Nat) (v : PortData)
    (hsel : portTarget sel ∈ [PortTarget.modsub, .status, .res, .reserved]) : s.portWrite sel k v = s := by
  obtain ⟨i, h, -⟩ | ⟨i, h, -⟩ | ⟨i, h, -⟩ | ⟨-, h⟩ := s.portWrite_cases sel k v
  case inr.inr.inr => exact h
  all_goals simp [h] at hsel

/-- Settles O56, selector by selector. -/
theorem portReadsReturnRegistersAndChangeNone : Obligations.PortReadsReturnRegistersAndChangeNone := by
  intro s k rest
  refine ⟨fun sel hpending => step_pending hpending, fun i => ⟨?_, fun hlen => ?_, ?_, fun v => ?_⟩, rfl, rfl, rfl,
    fun sel hlow hsel => ?_, fun sel v => ?_⟩
  · simp only [State.portRead, portTarget_word]; rfl
  · simp only [State.portRead, portTarget_length]; exact setWidth_portLength hlen
  · simp only [State.portRead, portTarget_bufferWord]; rfl
  · simp only [State.portWrite, portTarget_word]; rfl
  · have hreserved := (portTarget_unwritable sel (hsel.imp_left fun hhigh => ⟨by omega, hhigh⟩)).2 hlow
    simp only [State.portRead, hreserved]
  · obtain ⟨r, hwrite, -, hres, hstatus⟩ := s.portWrite_writes sel k v
    rw [hwrite]
    exact ⟨hstatus, hres⟩

/-! ### Writes -/

/-- A length write that fits resizes the buffer. -/
theorem State.portWrite_length (s : State) (i : Fin 8) (k : Nat) (v : PortData)
    (hfits : s.fits (v.setWidth 32).toNat = true) : s.portWrite (BitVec.ofNat 8 (0x10 + i)) k v =
      { s with regs := s.regs.writeP i (resize (s.regs.readP i) (v.setWidth 32).toNat) } := by
  simp only [State.portWrite, portTarget_length, State.writeLength, if_pos hfits]

/-- A length write above LMAX is ignored (20_memory.md R34). -/
theorem State.portWrite_length_of_not_fits (s : State) (i : Fin 8) (k : Nat) (v : PortData)
    (hfull : s.fits (v.setWidth 32).toNat = false) : s.portWrite (BitVec.ofNat 8 (0x10 + i)) k v = s := by
  have hnot : ¬ s.fits (v.setWidth 32).toNat = true := by rw [hfull]; decide
  simp only [State.portWrite, portTarget_length, State.writeLength, if_neg hnot]

/-- A word write replaces the word, if it is a stored one. -/
theorem State.portWrite_bufferWord (s : State) (i : Fin 8) (k : Nat) (v : PortData) :
    s.portWrite (BitVec.ofNat 8 (0x20 + i)) k v =
      { s with regs := s.regs.writeP i ((s.regs.readP i).set k (v.setWidth s.width.bits)) } := by
  simp only [State.portWrite, portTarget_bufferWord]

theorem resize_of_le {w n : Nat} {q : Seq w} (h : n ≤ q.length) : resize q n = q.take n := by
  rw [resize, Nat.sub_eq_zero_of_le h, List.replicate_zero, List.append_nil]

theorem resize_of_ge {w n : Nat} {q : Seq w} (h : q.length ≤ n) :
    resize q n = q ++ List.replicate (n - q.length) 0#w := by
  rw [resize, List.take_of_length_le h]

/-- Writing a buffer's own content back to it changes nothing. -/
theorem Regs.writeP_readP {w : Nat} (r : Regs w) (i : PReg) : r.writeP i (r.readP i) = r := by
  have hself : r.p.set i r.p[i] = r.p := Vector.set_getElem_self i.isLt
  rw [Regs.writeP, Regs.readP, hself]

/-- The later of two writes of one buffer stands. -/
theorem Regs.writeP_writeP {w : Nat} (r : Regs w) (i : PReg) (q q' : Seq w) :
    (r.writeP i q).writeP i q' = r.writeP i q' := by
  simp only [Regs.writeP, Vector.set_set]

/-- Settles O57: a fitting length write resizes, which cuts or extends. -/
theorem portLengthWriteResizesTheBuffer : Obligations.PortLengthWriteResizesTheBuffer := by
  refine fun s i k v => ⟨fun l hl hlt => ?_, fun hle => ⟨fun hcut => ?_, fun hgrow => ?_⟩⟩
  · exact s.portWrite_length_of_not_fits i k v ((s.not_fits_iff _).mpr ⟨l, hl, hlt⟩)
  · have hresize : resize (s.regs.readP i) (v.setWidth 32).toNat = _ := resize_of_le hcut
    rw [s.portWrite_length i k v ((s.fits_iff _).mpr hle), hresize]; rfl
  · have hresize : resize (s.regs.readP i) (v.setWidth 32).toNat = _ := resize_of_ge hgrow.le
    rw [s.portWrite_length i k v ((s.fits_iff _).mpr hle), hresize]; rfl

/-- Settles O58: a word index beyond the length and a selector that no write reaches are ignored. -/
theorem portWordWriteAndIgnoredWrites : Obligations.PortWordWriteAndIgnoredWrites := by
  refine fun s k v => ⟨fun i => ⟨fun _ => s.portWrite_bufferWord i k v, fun hlen => ?_⟩, fun sel hsel => ?_,
    fun sel rest hpending => step_pending hpending⟩
  · have hset : (s.regs.readP i).set k (v.setWidth s.width.bits) = s.regs.readP i := List.set_eq_of_length_le hlen
    rw [s.portWrite_bufferWord, hset, Regs.writeP_readP]
  · exact s.portWrite_unwritable k v (portTarget_unwritable sel hsel).1

/-! ### HostLoad -/

/-- The word writes of `HostLoad` from word `k` on (20_memory.md R35). -/
def wordWrites {w : Nat} (i : PReg) (k : Nat) (q : Seq w) : List Transaction :=
  q.mapIdx fun j x => .portWrite (BitVec.ofNat 8 (0x20 + i)) (k + j) (x.setWidth 128)

theorem wordWrites_cons {w : Nat} (i : PReg) (k : Nat) (x : Word w) (q : Seq w) :
    wordWrites i k (x :: q) =
      .portWrite (BitVec.ofNat 8 (0x20 + i)) k (x.setWidth 128) :: wordWrites i (k + 1) q := by
  simp only [wordWrites, List.mapIdx_cons, Nat.add_zero, Nat.add_assoc, Nat.add_comm 1]

theorem hostLoad_eq {w : Nat} (i : PReg) (q : Seq w) : hostLoad i q =
    .portWrite (BitVec.ofNat 8 (0x10 + i)) 0 (BitVec.ofNat 128 q.length) :: wordWrites i 0 q := by
  simp only [hostLoad, wordWrites, BitVec.ofNat_add, Nat.zero_add]

/-- The data lines are wide enough for a word of any width. -/
theorem setWidth_setWidth_word {width : Config.Width} (x : Word width.bits) :
    (x.setWidth 128).setWidth width.bits = x := by
  rw [BitVec.setWidth_setWidth_of_le _ (bits_le_data width), BitVec.setWidth_eq]

theorem core_step_portWrite (s : State) (sel : BitVec 8) (k : Nat) (v : PortData) (rest : List Transaction) :
    core.step { s with pending := .portWrite sel k v :: rest } =
      .next (State.portWrite { s with pending := rest } sel k v) := rfl

/-- The word writes replace the words above those already written, one by one. -/
theorem run_wordWrites (s : State) (i : PReg) (rest : List Transaction) (q old done : Seq s.width.bits)
    (hlen : old.length = q.length) :
    core.run q.length { s with
        regs := s.regs.writeP i (done ++ old), pending := wordWrites i done.length q ++ rest } =
      .next ({ s with regs := s.regs.writeP i (done ++ q), pending := rest } : State) := by
  induction q generalizing old done with
  | nil =>
    obtain rfl := List.length_eq_zero_iff.mp hlen
    rfl
  | cons x q ih =>
    obtain ⟨y, old, rfl⟩ := List.exists_cons_of_length_eq_add_one hlen
    have hset : (done ++ y :: old).set done.length x = (done ++ [x]) ++ old := by simp
    have hstep : core.step { s with
          regs := s.regs.writeP i (done ++ y :: old), pending := wordWrites i done.length (x :: q) ++ rest } =
        .next { s with
          regs := s.regs.writeP i ((done ++ [x]) ++ old)
          pending := wordWrites i (done ++ [x]).length q ++ rest } := by
      rw [wordWrites_cons, List.length_append]
      refine (core_step_portWrite { s with regs := s.regs.writeP i (done ++ y :: old) } ..).trans
        (congrArg Host.Outcome.next ?_)
      rw [State.portWrite_bufferWord]
      simp only [Regs.readP_writeP, Regs.writeP_writeP, setWidth_setWidth_word, hset]; rfl
    refine (run_succ core hstep q.length).trans ((ih old (done ++ [x]) (by simpa using hlen)).trans ?_)
    rw [List.append_assoc, List.singleton_append]

/-- Settles O59: the length write makes room, the word writes fill it. -/
theorem hostLoadLoadsTheSequence : Obligations.HostLoadLoadsTheSequence := by
  intro s i q rest hlen hfits
  have hn : ((BitVec.ofNat 128 q.length : PortData).setWidth 32).toNat = q.length := by
    simp only [BitVec.toNat_setWidth, BitVec.toNat_ofNat]; omega
  have hstep : core.step { s with pending := hostLoad i q ++ rest } =
      .next { s with
        regs := s.regs.writeP i ([] ++ resize (s.regs.readP i) q.length), pending := wordWrites i 0 q ++ rest } := by
    rw [hostLoad_eq]
    refine (core_step_portWrite s ..).trans (congrArg Host.Outcome.next ?_)
    rw [State.portWrite_length, hn]
    · rfl
    · rw [hn]; exact (s.fits_iff _).mpr hfits
  have hlength : (hostLoad i q).length = q.length + 1 := by simp [hostLoad]
  rw [hlength]
  exact (run_succ core hstep q.length).trans (run_wordWrites s i rest q _ [] (length_resize _ _))

/-! ### Reset meets the invariant -/

theorem State.instanceLegal_iff (s : State) :
    s.instanceLegal = true ↔ ∀ n, s.lmax = some n → 1 ≤ n ∧ n * s.width.bits ≤ 2 ^ 31 - 1 := by
  unfold State.instanceLegal; cases s.lmax <;> simp

theorem State.withinCapacity_iff (s : State) :
    s.withinCapacity = true ↔ ∀ i : PReg, s.fits (s.regs.readP i).length = true := decide_eq_true_iff

theorem State.resLegal_iff (s : State) : s.resLegal = true ↔
    ∀ n, s.lmax = some n → -1 ≤ s.regs.res.toInt ∧ s.regs.res.toInt ≤ (n : Int) * s.width.bits - 1 := by
  unfold State.resLegal; cases s.lmax <;> simp

theorem State.inv_iff (s : State) : s.inv = true ↔
    s.instanceLegal = true ∧ s.withinCapacity = true ∧ s.regs.status.toNat ≤ 4 ∧ s.resLegal = true := by
  simp only [State.inv, State.statusLegal, Bool.and_eq_true, decide_eq_true_eq, and_assoc]

/-- A buffer of the greatest capacity has at least the bits of one word. -/
theorem State.width_le_capacity {s : State} (hlegal : s.instanceLegal = true) {n : Nat} (hn : s.lmax = some n) :
    s.width.bits ≤ n * s.width.bits :=
  Nat.le_mul_of_pos_left _ (s.instanceLegal_iff.mp hlegal n hn).1

/-- RES may hold 0 and 1 with every legal capacity. -/
theorem State.le_one_le_capacity {s : State} (hlegal : s.instanceLegal = true) {n : Nat} (hn : s.lmax = some n) :
    (1 : Int) ≤ (n : Int) * s.width.bits - 1 := by
  have hcap : 8 ≤ n * s.width.bits := (eight_le_bits s.width).trans (State.width_le_capacity hlegal hn)
  have hcast : (8 : Int) ≤ n * s.width.bits := by exact_mod_cast hcap
  omega

/-- Registers at their reset values meet the invariant with every legal capacity. -/
theorem State.inv_of_resetRegs {s : State} (hlegal : s.instanceLegal = true) (hregs : s.regs = resetRegs s.width) :
    s.inv = true := by
  have hres : s.regs.res.toInt = 0 := by rw [hregs]; rfl
  refine s.inv_iff.mpr ⟨hlegal, s.withinCapacity_iff.mpr fun i => ?_, ?_, s.resLegal_iff.mpr fun n hn => ?_⟩
  · rw [hregs, readP_resetRegs]
    exact (s.fits_iff 0).mpr fun l _ => Nat.zero_le l
  · rw [hregs]; exact Nat.zero_le 4
  · have hcap := State.le_one_le_capacity hlegal hn
    omega

/-- Settles O13: `State.resetOf` and `State.reset` hold the reset values. -/
theorem resetMeetsTheInvariant : Obligations.ResetMeetsTheInvariant :=
  ⟨fun _ _ hlegal => State.inv_of_resetRegs hlegal rfl, State.inv_of_resetRegs rfl rfl⟩

end Sys2Proof.Machine
end

section
/-! PROOF. Canonical sequences and their values (spec/00_scope.md R7, spec/10_state.md R16): a sequence without a zero
top word is fixed by its value, so a command whose result is canonical is settled by the value of the result. The
commands that add, shift, clean up or measure a buffer follow (spec/41_polyring.md R82, R85 to R90). -/

namespace Sys2Proof.Machine

variable {w : Nat}

/-! ### Canonical sequences -/

/-- A sequence without a zero top word (10_state.md R16). -/
def Canonical (q : Seq w) : Prop := q.getLast? ≠ some 0#w

theorem canonical_nil : Canonical ([] : Seq w) := nofun

theorem canonical_cleanUp (q : Seq w) : Canonical (cleanUp q) := getLast?_cleanUp q

theorem canonical_of_cons {x : Word w} {q : Seq w} (h : Canonical (x :: q)) : Canonical q := by
  cases q with
  | nil => exact canonical_nil
  | cons y q => simpa only [Canonical, List.getLast?_cons_cons] using h

theorem val_div_two_pow (x : Word w) (q : Seq w) : val (x :: q) / 2 ^ w = val q := by
  rw [val_cons, Nat.add_mul_div_left _ _ (Nat.two_pow_pos w), Nat.div_eq_of_lt x.isLt, Nat.zero_add]

theorem val_mod_two_pow (x : Word w) (q : Seq w) : val (x :: q) % 2 ^ w = x.toNat := by
  rw [val_cons, Nat.add_mul_mod_self_left, Nat.mod_eq_of_lt x.isLt]

/-- The only canonical sequence of value 0 is the empty one. -/
theorem eq_nil_of_val_eq_zero {q : Seq w} (hq : Canonical q) (h : val q = 0) : q = [] := by
  induction q with
  | nil => rfl
  | cons x q ih =>
    have htail : val q = 0 := by rw [← val_div_two_pow x q, h, Nat.zero_div]
    obtain rfl := ih (canonical_of_cons hq) htail
    have hx : x = 0#w := by
      apply BitVec.eq_of_toNat_eq
      rw [← val_mod_two_pow x [], h, BitVec.toNat_zero, Nat.zero_mod]
    exact absurd (by simp [hx]) hq

/-- A canonical sequence is fixed by its value. -/
theorem eq_of_val_eq {q r : Seq w} (hq : Canonical q) (hr : Canonical r) (h : val q = val r) : q = r := by
  induction q generalizing r with
  | nil => exact (eq_nil_of_val_eq_zero hr h.symm).symm
  | cons x q ih =>
    cases r with
    | nil => exact eq_nil_of_val_eq_zero hq h
    | cons y r =>
      have hword : x = y := BitVec.eq_of_toNat_eq (by rw [← val_mod_two_pow x q, h, val_mod_two_pow])
      have htail : val q = val r := by rw [← val_div_two_pow x q, h, val_div_two_pow]
      rw [hword, ih (canonical_of_cons hq) (canonical_of_cons hr) htail]

/-! ### `canon` -/

theorem shiftRight_lt_two_pow (hw : 0 < w) {n k : Nat} (h : n < 2 ^ (k + 1)) : n >>> w < 2 ^ k := by
  rw [Nat.shiftRight_eq_div_pow, Nat.div_lt_iff_lt_mul (Nat.two_pow_pos w)]
  calc n < 2 ^ (k + 1) := h
    _ ≤ 2 ^ (k + w) := Nat.pow_le_pow_right (by decide) (by omega)
    _ = 2 ^ k * 2 ^ w := Nat.pow_add ..

/-- With fuel for every bit, the words of `n` have value `n`. -/
theorem val_canonWords (hw : 0 < w) {fuel n : Nat} (h : n < 2 ^ fuel) : val (canonWords w fuel n) = n := by
  induction fuel generalizing n with
  | zero => rw [canonWords, val_nil]; omega
  | succ fuel ih =>
    rw [canonWords]
    split
    · rename_i hn; rw [hn, val_nil]
    · rw [val_cons, ih (shiftRight_lt_two_pow hw h), BitVec.toNat_ofNat, Nat.shiftRight_eq_div_pow, Nat.mod_add_div]

theorem canonical_canonWords (hw : 0 < w) {fuel n : Nat} (h : n < 2 ^ fuel) : Canonical (canonWords w fuel n) := by
  induction fuel generalizing n with
  | zero => exact canonical_nil
  | succ fuel ih =>
    rw [canonWords]
    split
    · exact canonical_nil
    · rename_i hn
      have hrest := ih (shiftRight_lt_two_pow hw h)
      have hval := val_canonWords hw (shiftRight_lt_two_pow hw h)
      cases htail : canonWords w fuel (n >>> w) with
      | cons y q =>
        rw [htail] at hrest
        simpa only [Canonical, List.getLast?_cons_cons] using hrest
      | nil =>
        rw [htail, val_nil] at hval
        have hlow : n % 2 ^ w = n := by
          have := Nat.mod_add_div n (2 ^ w)
          rw [← Nat.shiftRight_eq_div_pow, ← hval] at this
          omega
        intro hlast
        have hzero : BitVec.ofNat w n = 0#w := by simpa using hlast
        have hzero' := congrArg BitVec.toNat hzero
        rw [BitVec.toNat_ofNat, hlow, BitVec.toNat_zero] at hzero'
        exact hn hzero'

theorem val_canon (hw : 0 < w) (n : Nat) : val (canon w n) = n := val_canonWords hw Nat.lt_log2_self

theorem canonical_canon (hw : 0 < w) (n : Nat) : Canonical (canon w n) :=
  canonical_canonWords hw Nat.lt_log2_self

/-- `clean_up` gives the canonical sequence of the value (41_polyring.md R89). -/
theorem cleanUp_eq_canon (hw : 0 < w) (q : Seq w) : cleanUp q = canon w (val q) :=
  eq_of_val_eq (canonical_cleanUp q) (canonical_canon hw _) ((val_cleanUp hw q).trans (val_canon hw _).symm)

theorem cleanUp_eq_of_val_eq (hw : 0 < w) {q r : Seq w} (h : val q = val r) : cleanUp q = cleanUp r := by
  rw [cleanUp_eq_canon hw, h, ← cleanUp_eq_canon hw]

@[simp] theorem canon_zero (w : Nat) : canon w 0 = [] := rfl

/-- A value below 2^(k*W) takes at most k words. -/
theorem length_canonWords_le {k fuel n : Nat} (h : n < 2 ^ (w * k)) : (canonWords w fuel n).length ≤ k := by
  induction fuel generalizing n k with
  | zero => exact Nat.zero_le k
  | succ fuel ih =>
    rw [canonWords]
    split
    · exact Nat.zero_le k
    · rename_i hn
      cases k with
      | zero => exact absurd (by simpa using h) hn
      | succ k =>
        refine Nat.succ_le_succ (ih ?_)
        rw [Nat.shiftRight_eq_div_pow, Nat.div_lt_iff_lt_mul (Nat.two_pow_pos w), ← Nat.pow_add]
        exact h

theorem length_canon_le {k n : Nat} (h : n < 2 ^ (w * k)) : (canon w n).length ≤ k := length_canonWords_le h

theorem val_lt_two_pow (q : Seq w) : val q < 2 ^ (w * q.length) := by
  induction q with
  | nil => exact Nat.one_pos
  | cons x q ih =>
    rw [val_cons, List.length_cons, Nat.mul_succ, Nat.add_comm _ w, Nat.pow_add]
    calc x.toNat + 2 ^ w * val q < 2 ^ w * (val q + 1) := by rw [Nat.mul_succ]; have := x.isLt; omega
      _ ≤ 2 ^ w * 2 ^ (w * q.length) := Nat.mul_le_mul_left _ ih

theorem length_cleanUp_le (q : Seq w) : (cleanUp q).length ≤ q.length := by
  obtain ⟨n, hn⟩ := cleanUp_append_zeros q
  conv_rhs => rw [hn, List.length_append]
  exact Nat.le_add_right ..

/-! ### The degree of a sequence -/

theorem val_append (q r : Seq w) : val (q ++ r) = val q + 2 ^ (w * q.length) * val r := by
  induction q with
  | nil => simp
  | cons x q ih =>
    rw [List.cons_append, val_cons, ih, val_cons, List.length_cons, Nat.mul_succ, Nat.pow_add]
    ring

/-- The degree of a number put together from low bits and a part above them. -/
theorem deg_add_two_pow_mul {lo hi k : Nat} (hlo : lo < 2 ^ k) (hhi : hi ≠ 0) : deg (lo + 2 ^ k * hi) = k + deg hi := by
  have hne : lo + 2 ^ k * hi ≠ 0 := by
    have := Nat.mul_pos (Nat.two_pow_pos k) (Nat.pos_of_ne_zero hhi)
    omega
  have hlog : (lo + 2 ^ k * hi).log2 = k + hi.log2 := by
    rw [Nat.log2_eq_iff hne]
    constructor
    · calc 2 ^ (k + hi.log2) = 2 ^ k * 2 ^ hi.log2 := Nat.pow_add ..
        _ ≤ 2 ^ k * hi := Nat.mul_le_mul_left _ (Nat.log2_self_le hhi)
        _ ≤ lo + 2 ^ k * hi := Nat.le_add_left ..
    · calc lo + 2 ^ k * hi < 2 ^ k * (hi + 1) := by rw [Nat.mul_succ]; omega
        _ ≤ 2 ^ k * 2 ^ (hi.log2 + 1) := Nat.mul_le_mul_left _ Nat.lt_log2_self
        _ = 2 ^ (k + hi.log2 + 1) := by rw [← Nat.pow_add, Nat.add_assoc]
  rw [deg, if_neg hne, deg, if_neg hhi, hlog, Nat.cast_add]

/-- `degree` is the degree of the value, whatever the trailing zero words (41_polyring.md R90). -/
theorem degree_eq_deg_val (hw : 0 < w) (q : Seq w) : degree q = deg (val q) := by
  rw [← val_cleanUp hw q, degree]
  have hcanon := canonical_cleanUp q
  generalize cleanUp q = c at *
  cases c using List.reverseRecOn with
  | nil => rfl
  | append_singleton init top =>
    have htop : top.toNat ≠ 0 := by
      intro hzero
      have : top = 0#w := BitVec.eq_of_toNat_eq (by simpa using hzero)
      exact hcanon (by simp [this])
    have hval : val (init ++ [top]) = val init + 2 ^ (w * init.length) * top.toNat := by simp [val_append, val_cons]
    rw [hval, deg_add_two_pow_mul (val_lt_two_pow init) htop]
    simp only [List.getLast?_concat, List.length_append, List.length_singleton, fdeg, Nat.cast_add, Nat.cast_one,
      Nat.cast_mul, add_sub_cancel_right]
    ring

/-! ### The states the buffer commands end in -/

theorem bits_pos (width : Config.Width) : 0 < width.bits := Nat.lt_of_lt_of_le (by decide) (eight_le_bits width)

/-- A capacity-checked write that fits. -/
theorem State.store_of_fits {s : State} (d : PReg) {q : Seq s.width.bits} (h : ∀ n, s.lmax = some n → q.length ≤ n) :
    s.store d q = { s with regs := { s.regs with p := s.regs.p.set d q, status := 0 } } := by
  rw [State.store, if_pos ((s.fits_iff _).mpr h)]; rfl

/-- A capacity-checked write that does not fit. -/
theorem State.store_of_full {s : State} (d : PReg) {q : Seq s.width.bits} {n : Nat} (hn : s.lmax = some n)
    (h : n < q.length) : s.store d q = { s with regs := { s.regs with status := 4 } } := by
  have hfull : ¬ s.fits q.length = true := by rw [(s.not_fits_iff _).mpr ⟨n, hn, h⟩]; decide
  rw [State.store, if_neg hfull]; rfl

theorem exec_padd (d a b : PReg) (s : State) : exec (.padd d a b) s =
    .next { s with regs := { s.regs with p := s.regs.p.set d (ringAdd s.regs.p[a] s.regs.p[b]), status := 0 } } := rfl

theorem exec_pshl1 (d : PReg) (s : State) : exec (.pshl1 d) s = .next (s.store d (shiftLeft s.regs.p[d])) := rfl

theorem exec_pshl (d : PReg) (n : Imm16) (s : State) :
    exec (.pshl d n) s = .next (s.store d (shiftLeftByBits s.regs.p[d] n.toNat)) := rfl

theorem exec_pshr1 (d : PReg) (s : State) : exec (.pshr1 d) s =
    .next { s with regs := { s.regs with p := s.regs.p.set d (shiftRight s.regs.p[d]), status := 0 } } := rfl

theorem exec_paddi {d a : PReg} (hne : d ≠ a) (s : State) : exec (.paddi d a) s =
    .next { s with regs := { s.regs with p := s.regs.p.set d (addInPlace s.regs.p[d] s.regs.p[a]), status := 0 } } :=
  if_neg hne

theorem exec_pclean (d : PReg) (s : State) : exec (.pclean d) s =
    .next { s with regs := { s.regs with p := s.regs.p.set d (cleanUp s.regs.p[d]), status := 0 } } := rfl

theorem exec_pdeg (a : PReg) (s : State) : exec (.pdeg a) s = .next { s with regs := { s.regs with
    res := resOfDegree s.width.bits (val s.regs.p[a]) (degree s.regs.p[a]), status := 0 } } := rfl

/-! ### Sums -/

theorem ringAdd_eq_canon (hw : 0 < w) (a b : Seq w) : ringAdd a b = canon w (val a ^^^ val b) := by
  rw [ringAdd, cleanUp_eq_canon hw, val_addInPlace hw]

theorem ringAdd_self (hw : 0 < w) (a : Seq w) : ringAdd a a = [] := by
  rw [ringAdd_eq_canon hw, Nat.xor_self, canon_zero]

/-- Settles O42: the sum is canonical and has the XOR of the values. -/
theorem paddWritesTheCanonicalSum : Obligations.PaddWritesTheCanonicalSum :=
  fun d a b s => by rw [exec_padd, ringAdd_eq_canon (bits_pos s.width)]

/-- Settles O47: the in-place sum as it is. -/
theorem paddiXorsInPlace : Obligations.PaddiXorsInPlace :=
  fun _ _ s hne => ⟨_, val_addInPlace (bits_pos s.width) _ _, length_addInPlace _ _, exec_paddi hne s⟩

/-- Settles O7: the words are the encodings of PADDI, and a sum of a sequence with itself has the value 0. -/
theorem paddiWithOneBufferIsIllegal : Obligations.PaddiWithOneBufferIsIllegal := by
  refine fun d a => ⟨?_, fun hne => ?_, fun s => ⟨?_, exec_pzero d s, ?_⟩⟩
  · exact decode_encode_of_not_wf (i := .paddi d d) (by simp [Instr.wf])
  · exact decode_encode (i := .paddi d a) (by simp [Instr.wf, hne])
  · exact exec_of_not_wf (by simp [Instr.wf]) s
  · rw [exec_padd, ringAdd_self (bits_pos s.width)]

/-! ### Shifts -/

/-- Settles O44: the new word is the top bit that left. -/
theorem pshl1DoublesTheValue : Obligations.Pshl1DoublesTheValue := by
  refine fun d s => ⟨shiftLeft s.regs.p[d], val_shiftLeft (bits_pos s.width) _, ?_, fun hfits => ?_,
    fun n hn hfull => ?_⟩
  · rw [shiftLeft, length_shiftLeftIn]
    cases s.regs.p[d].getLast? with
    | none => simp
    | some top => rfl
  · rw [exec_pshl1, State.store_of_fits d hfits]
  · rw [exec_pshl1, State.store_of_full d hn hfull]

theorem ushiftRight_eq_zero_iff (x : Word w) (k : Nat) : x >>> k = 0#w ↔ x.toNat >>> k = 0 := by
  rw [← BitVec.toNat_inj, BitVec.toNat_ushiftRight, BitVec.toNat_zero]

/-- The length of the shift by n bits: n div W zero words below, and one word above when residual bits leave the top
word (41_polyring.md R86). -/
theorem length_shiftLeftByBits (q : Seq w) (n : Nat) : (shiftLeftByBits q n).length = q.length + n / w +
    (if n % w ≠ 0 ∧ (q.getLast?.getD 0).toNat >>> (w - n % w) ≠ 0 then 1 else 0) := by
  rw [shiftLeftByBits, List.length_append, List.length_replicate]
  by_cases hr : n % w = 0
  · simp [hr, Nat.add_comm]
  · rw [if_neg hr, length_shiftResidual]
    simp only [ushiftRight_eq_zero_iff, hr, ne_eq, not_false_eq_true, true_and, ite_not]
    rw [Nat.add_comm (n / w), Nat.add_right_comm]
    rfl

/-- Settles O45: the shifted sequence has the length R86 gives. -/
theorem pshlShiftsTheValue : Obligations.PshlShiftsTheValue := by
  refine fun d n s => ⟨shiftLeftByBits s.regs.p[d] n.toNat, val_shiftLeftByBits (bits_pos s.width) _ _,
    length_shiftLeftByBits _ _, fun hfits => ?_, fun l hl hfull => ?_⟩
  · rw [exec_pshl, State.store_of_fits d hfits]
  · rw [exec_pshl, State.store_of_full d hl hfull]

/-- Settles O46: the shift right keeps the length. -/
theorem pshr1HalvesTheValue : Obligations.Pshr1HalvesTheValue :=
  fun d s => ⟨_, val_shiftRight (bits_pos s.width) _, length_shiftRight _, exec_pshr1 d s⟩

theorem ushiftRight_last (x : Word w) : x >>> (w - 1) = (BitVec.ofBool x.msb).setWidth w := by
  apply BitVec.eq_of_getLsbD_eq
  intro i hi
  rw [BitVec.getLsbD_ushiftRight, BitVec.getLsbD_setWidth, BitVec.msb_eq_getLsbD_last]
  rcases Nat.eq_zero_or_pos i with rfl | hpos
  · simp [hi]
  · rw [BitVec.getLsbD_of_ge x _ (by omega), BitVec.getLsbD_of_ge (BitVec.ofBool _) _ hpos, Bool.and_false]

/-- One residual bit is the bit `shift_left` carries (41_polyring.md R86). -/
theorem shiftResidual_one (hw : 0 < w) (below : Word w) (q : Seq w) :
    shiftResidual 1 below q = shiftLeftIn below.msb q := by
  induction q generalizing below with
  | nil =>
    have hone : (1 : Nat) % 2 ^ w = 1 := Nat.mod_eq_of_lt (Nat.one_lt_two_pow hw.ne')
    have hne : (BitVec.ofBool true).setWidth w ≠ 0#w := fun h => by
      simpa [hone] using congrArg BitVec.toNat h
    have htrue : (BitVec.ofBool true).setWidth w = 1#w := by apply BitVec.eq_of_toNat_eq; simp
    rw [shiftResidual, shiftLeftIn, ushiftRight_last]
    cases below.msb with
    | true => rw [if_neg hne, if_pos rfl, htrue]
    | false => simp
  | cons x q ih => rw [shiftResidual, shiftLeftIn, ushiftRight_last, ih]

theorem val_iterate_shiftRight (hw : 0 < w) (n : Nat) (q : Seq w) : val (shiftRight^[n] q) = val q >>> n := by
  induction n generalizing q with
  | zero => rfl
  | succ n ih => rw [Function.iterate_succ_apply, ih, val_shiftRight hw, ← Nat.shiftRight_add, Nat.add_comm]

/-- Settles O53, on the values: a shift left loses no bit. -/
theorem shiftsRoundTrip : Obligations.ShiftsRoundTrip := by
  intro width q n
  have hw := bits_pos width
  refine ⟨cleanUp_eq_of_val_eq hw ?_, cleanUp_eq_of_val_eq hw ?_, ?_⟩
  · rw [val_shiftRight hw, val_shiftLeft hw, Nat.shiftLeft_shiftRight]
  · rw [val_iterate_shiftRight hw, val_shiftLeftByBits hw, Nat.shiftLeft_shiftRight]
  · have hlt : 1 < width.bits := Nat.lt_of_lt_of_le (by decide) (eight_le_bits width)
    rw [shiftLeftByBits, Nat.div_eq_of_lt hlt, Nat.mod_eq_of_lt hlt, if_neg Nat.one_ne_zero, shiftResidual_one hw,
      BitVec.msb_zero]
    rfl

/-! ### Clean-up and degree -/

/-- Settles O48: `clean_up` gives the canonical sequence of the value. -/
theorem pcleanCanonicalizes : Obligations.PcleanCanonicalizes := by
  intro d s
  have hw := bits_pos s.width
  exact ⟨by rw [exec_pclean, cleanUp_eq_canon hw], val_canon hw _, canonical_canon hw _⟩

/-- Settles O49: `degree` is the degree of the value, and one below 2^31 fits RES. -/
theorem pdegWritesTheDegreeOfTheValue : Obligations.PdegWritesTheDegreeOfTheValue := by
  intro a s
  have hdegree := degree_eq_deg_val (bits_pos s.width) s.regs.p[a]
  refine ⟨fun hlt => ?_, ⟨_, exec_pdeg a s⟩, fun hzero => ?_⟩
  · rw [exec_pdeg, hdegree, resOfDegree, if_pos hlt]
  · rw [exec_pdeg, hdegree, hzero]; rfl

end Sys2Proof.Machine
end

section
/-! PROOF. The value-level functions as arithmetic of polynomials over GF(2) (spec/00_scope.md R7): `toPoly n` is the
polynomial whose coefficients are the bits of `n`, XOR is its sum, `clmul` its product, `deg` its degree and `pdivmod`
its division with remainder. The laws of the ring commands and the contract of `pdivmod` are those of polynomials. -/

namespace Sys2Proof.Machine

open Polynomial

/-! ### Numbers as polynomials -/

/-- The polynomial over GF(2) a natural number stands for: bit `i` is the coefficient of x^i (00_scope.md R7). -/
noncomputable def toPoly (n : Nat) : (ZMod 2)[X] :=
  ∑ i ∈ Finset.range (n.log2 + 1), if n.testBit i then X ^ i else 0

theorem testBit_eq_false_of_log2_lt {n i : Nat} (h : n.log2 < i) : n.testBit i = false :=
  Nat.testBit_lt_two_pow (Nat.lt_log2_self.trans_le (Nat.pow_le_pow_right (by decide) h))

theorem coeff_toPoly (n i : Nat) : (toPoly n).coeff i = if n.testBit i then 1 else 0 := by
  have hterm (j : Nat) : (if n.testBit j then (X ^ j : (ZMod 2)[X]) else 0).coeff i =
      if i = j then (if n.testBit i then 1 else 0) else 0 := by
    by_cases hij : i = j
    · subst hij; cases n.testBit i <;> simp
    · cases n.testBit j <;> simp [coeff_X_pow, hij]
  rw [toPoly, finsetSum_coeff, Finset.sum_congr rfl fun j _ => hterm j, Finset.sum_ite_eq]
  by_cases hi : i < n.log2 + 1
  · rw [if_pos (Finset.mem_range.mpr hi)]
  · rw [if_neg (by simpa using hi), testBit_eq_false_of_log2_lt (by omega)]; rfl

theorem toPoly_injective {m n : Nat} (h : toPoly m = toPoly n) : m = n := by
  refine Nat.eq_of_testBit_eq fun i => ?_
  have hi := congrArg (fun p => p.coeff i) h
  simp only [coeff_toPoly] at hi
  cases hm : m.testBit i <;> cases hn : n.testBit i <;> simp_all

theorem toPoly_inj {m n : Nat} : toPoly m = toPoly n ↔ m = n := ⟨toPoly_injective, congrArg toPoly⟩

@[simp] theorem toPoly_zero : toPoly 0 = 0 := by ext i; simp [coeff_toPoly]

theorem toPoly_eq_zero_iff {n : Nat} : toPoly n = 0 ↔ n = 0 := by rw [← toPoly_zero, toPoly_inj]

@[simp] theorem toPoly_xor (m n : Nat) : toPoly (m ^^^ n) = toPoly m + toPoly n := by
  ext i
  rw [coeff_add, coeff_toPoly, coeff_toPoly, coeff_toPoly, Nat.testBit_xor]
  cases m.testBit i <;> cases n.testBit i <;> decide

@[simp] theorem toPoly_shiftLeft (n k : Nat) : toPoly (n <<< k) = X ^ k * toPoly n := by
  ext i
  rw [coeff_X_pow_mul', coeff_toPoly, coeff_toPoly, Nat.testBit_shiftLeft]
  by_cases hi : k ≤ i <;> simp [hi]

/-- A number put together from low bits and a part above them. -/
theorem toPoly_add_two_pow_mul {lo k : Nat} (hlo : lo < 2 ^ k) (hi : Nat) :
    toPoly (lo + 2 ^ k * hi) = toPoly lo + X ^ k * toPoly hi := by
  have hxor : lo + 2 ^ k * hi = lo ^^^ (hi <<< k) := by
    refine Nat.eq_of_testBit_eq fun i => ?_
    rw [Nat.add_comm, Nat.testBit_two_pow_mul_add _ hlo, Nat.testBit_xor, Nat.testBit_shiftLeft]
    by_cases hik : i < k
    · simp [hik, Nat.not_le.mpr hik]
    · have hge : k ≤ i := Nat.le_of_not_lt hik
      rw [Nat.testBit_lt_two_pow (hlo.trans_le (Nat.pow_le_pow_right (by decide) hge))]
      simp [hik, hge]
  rw [hxor, toPoly_xor, toPoly_shiftLeft]

@[simp] theorem toPoly_one : toPoly 1 = 1 := by
  ext i
  simp only [coeff_toPoly, coeff_one, Nat.testBit_one_eq_true_iff_self_eq_zero]

@[simp] theorem toPoly_two_pow (k : Nat) : toPoly (2 ^ k) = X ^ k := by
  rw [← Nat.one_shiftLeft, toPoly_shiftLeft, toPoly_one, mul_one]

/-- Every polynomial over GF(2) is that of a number. -/
theorem toPoly_surjective (p : (ZMod 2)[X]) : ∃ n, toPoly n = p := by
  induction p using Polynomial.induction_on' with
  | add p q hp hq =>
    obtain ⟨m, rfl⟩ := hp
    obtain ⟨n, rfl⟩ := hq
    exact ⟨m ^^^ n, toPoly_xor m n⟩
  | monomial k c =>
    obtain rfl | rfl : c = 0 ∨ c = 1 := by revert c; decide
    · exact ⟨0, by simp⟩
    · exact ⟨2 ^ k, by rw [toPoly_two_pow, X_pow_eq_monomial]⟩

/-! ### Degrees -/

theorem degree_toPoly_lt_iff {n k : Nat} : (toPoly n).degree < k ↔ n < 2 ^ k := by
  rw [degree_lt_iff_coeff_zero]
  constructor
  · intro h
    refine Nat.lt_pow_two_of_testBit n fun i hi => ?_
    have hcoeff := h i hi
    rw [coeff_toPoly] at hcoeff
    by_contra hbit
    simp [hbit] at hcoeff
  · intro h i hi
    rw [coeff_toPoly, Nat.testBit_lt_two_pow (h.trans_le (Nat.pow_le_pow_right (by decide) hi))]; rfl

theorem natDegree_toPoly (n : Nat) : (toPoly n).natDegree = n.log2 := by
  rcases Nat.eq_zero_or_pos n with rfl | hpos
  · simp
  have hne : toPoly n ≠ 0 := mt toPoly_eq_zero_iff.mp hpos.ne'
  have hlt : (toPoly n).natDegree < n.log2 + 1 := by
    rw [natDegree_lt_iff_degree_lt hne]
    exact degree_toPoly_lt_iff.mpr Nat.lt_log2_self
  have hge : ¬ (toPoly n).natDegree < n.log2 := by
    rw [natDegree_lt_iff_degree_lt hne, degree_toPoly_lt_iff, Nat.not_lt]
    exact Nat.log2_self_le hpos.ne'
  omega

/-- `deg` is the degree, with -1 for that of the zero polynomial (00_scope.md R7). -/
theorem degree_toPoly_lt_degree_iff {m n : Nat} : (toPoly m).degree < (toPoly n).degree ↔ deg m < deg n := by
  by_cases hn : n = 0
  · subst hn
    have hge : (-1 : Int) ≤ deg m := by unfold deg; split <;> omega
    simp only [toPoly_zero, degree_zero, not_lt_bot, false_iff, not_lt]
    exact hge
  have hdegree : (toPoly n).degree = (n.log2 : Nat) := by
    rw [degree_eq_natDegree (mt toPoly_eq_zero_iff.mp hn), natDegree_toPoly]
  rw [hdegree, degree_toPoly_lt_iff, deg, deg, if_neg hn]
  by_cases hm : m = 0
  · subst hm
    simp only [if_true, Nat.two_pow_pos, true_iff]
    omega
  · rw [if_neg hm, Nat.cast_lt, ← Nat.log2_lt hm]

/-- Every non-zero polynomial over GF(2) is monic. -/
theorem monic_toPoly {n : Nat} (hn : n ≠ 0) : (toPoly n).Monic := by
  have hlead : (toPoly n).leadingCoeff ≠ 0 := leadingCoeff_ne_zero.mpr (mt toPoly_eq_zero_iff.mp hn)
  have hbit : ∀ c : ZMod 2, c ≠ 0 → c = 1 := by decide
  exact hbit _ hlead

/-! ### The product -/

theorem toPoly_clmulBelow (a b k : Nat) :
    toPoly (clmulBelow a b k) = toPoly a * ∑ i ∈ Finset.range k, if b.testBit i then X ^ i else 0 := by
  induction k with
  | zero => simp [clmulBelow]
  | succ k ih =>
    rw [clmulBelow, toPoly_xor, ih, Finset.sum_range_succ, mul_add]
    cases b.testBit k with
    | true => simp only [if_true, toPoly_shiftLeft, mul_comm]
    | false => simp

/-- The carry-less product is the product of polynomials. -/
@[simp] theorem toPoly_clmul (a b : Nat) : toPoly (clmul a b) = toPoly a * toPoly b := toPoly_clmulBelow ..

/-- The product commutes, as that of polynomials does; associativity and distributivity likewise. -/
theorem clmul_comm (a b : Nat) : clmul a b = clmul b a := toPoly_injective (by simp [mul_comm])

theorem clmul_assoc (a b c : Nat) : clmul (clmul a b) c = clmul a (clmul b c) :=
  toPoly_injective (by simp [mul_assoc])

theorem clmul_xor (a b c : Nat) : clmul a (b ^^^ c) = clmul a b ^^^ clmul a c :=
  toPoly_injective (by simp [mul_add])

/-! ### The division -/

/-- Taking the divisor, aligned under the dividend's top bit, off the dividend lowers the degree. -/
theorem deg_xor_shiftLeft_lt {a b : Nat} (hb : b ≠ 0) (h : deg b ≤ deg a) :
    deg (a ^^^ (b <<< (deg a - deg b).toNat)) < deg a := by
  have ha : a ≠ 0 := by
    rintro rfl
    simp only [deg, if_true, if_neg hb] at h
    omega
  rw [deg, deg, if_neg ha, if_neg hb] at h
  rw [← degree_toPoly_lt_degree_iff, toPoly_xor, toPoly_shiftLeft, ← CharTwo.sub_eq_add]
  have hshift : (deg a - deg b).toNat = a.log2 - b.log2 := by rw [deg, deg, if_neg ha, if_neg hb]; omega
  have hmonic : (X ^ (a.log2 - b.log2) * toPoly b).Monic := (monic_X_pow _).mul (monic_toPoly hb)
  have hdegree : (toPoly a).degree = (X ^ (a.log2 - b.log2) * toPoly b).degree := by
    rw [degree_eq_natDegree (monic_toPoly ha).ne_zero, degree_eq_natDegree hmonic.ne_zero,
      (monic_X_pow _).natDegree_mul (monic_toPoly hb), natDegree_X_pow, natDegree_toPoly, natDegree_toPoly,
      Nat.sub_add_cancel (by omega)]
  rw [hshift]
  exact degree_sub_lt_left hdegree (monic_toPoly ha).ne_zero
    ((monic_toPoly ha).leadingCoeff.trans hmonic.leadingCoeff.symm)

/-- The loop keeps quotient times divisor plus rest, and ends with a rest of lower degree than the divisor. -/
theorem pdivmodLoop_spec {b : Nat} (hb : b ≠ 0) {fuel q a : Nat} (hfuel : deg a < fuel) :
    toPoly (pdivmodLoop b fuel q a).1 * toPoly b + toPoly (pdivmodLoop b fuel q a).2 =
      toPoly q * toPoly b + toPoly a ∧ deg (pdivmodLoop b fuel q a).2 < deg b := by
  induction fuel generalizing q a with
  | zero =>
    have hdeg : (0 : Int) ≤ deg b := by rw [deg, if_neg hb]; omega
    exact ⟨rfl, hfuel.trans_le hdeg⟩
  | succ fuel ih =>
    rw [pdivmodLoop]
    split
    · rename_i hlt; exact ⟨rfl, hlt⟩
    · rename_i hge
      have hlower := deg_xor_shiftLeft_lt hb (Int.not_lt.mp hge)
      obtain ⟨hsum, hdeg⟩ := ih (q := q ^^^ (1 <<< (deg a - deg b).toNat))
        (a := a ^^^ (b <<< (deg a - deg b).toNat)) (by omega)
      refine ⟨hsum.trans ?_, hdeg⟩
      simp only [toPoly_xor, toPoly_shiftLeft, toPoly_one, mul_one, add_mul]
      rw [add_add_add_comm, CharTwo.add_self_eq_zero, add_zero]

/-- The contract of `pdivmod` (00_scope.md R7). -/
theorem pdivmod_spec (a : Nat) {b : Nat} (hb : b ≠ 0) :
    toPoly (pdivmod a b).1 * toPoly b + toPoly (pdivmod a b).2 = toPoly a ∧ deg (pdivmod a b).2 < deg b := by
  have hfuel : deg a < ((a.log2 + 1 : Nat) : Int) := by rw [deg]; split <;> omega
  obtain ⟨hsum, hdeg⟩ := pdivmodLoop_spec hb (q := 0) hfuel
  exact ⟨by simpa [pdivmod] using hsum, hdeg⟩

/-- Numbers that meet the contract are quotient and remainder of the polynomials. -/
theorem divByMonic_modByMonic_eq {a b q r : Nat} (hb : b ≠ 0) (hsum : toPoly q * toPoly b + toPoly r = toPoly a)
    (hdeg : deg r < deg b) : toPoly a /ₘ toPoly b = toPoly q ∧ toPoly a %ₘ toPoly b = toPoly r :=
  div_modByMonic_unique _ _ (monic_toPoly hb)
    ⟨by rw [← hsum, mul_comm, add_comm], degree_toPoly_lt_degree_iff.mpr hdeg⟩

/-- The contract fixes quotient and remainder. -/
theorem eq_pdivmod {a b q r : Nat} (hb : b ≠ 0) (hsum : toPoly q * toPoly b + toPoly r = toPoly a)
    (hdeg : deg r < deg b) : (q, r) = pdivmod a b := by
  obtain ⟨hspec, hspecdeg⟩ := pdivmod_spec a hb
  obtain ⟨hq, hr⟩ := divByMonic_modByMonic_eq hb hsum hdeg
  obtain ⟨hq', hr'⟩ := divByMonic_modByMonic_eq hb hspec hspecdeg
  exact Prod.ext (toPoly_injective (hq.symm.trans hq')) (toPoly_injective (hr.symm.trans hr'))

theorem toPoly_pdivmod_fst (a : Nat) {b : Nat} (hb : b ≠ 0) : toPoly (pdivmod a b).1 = toPoly a /ₘ toPoly b := by
  obtain ⟨hsum, hdeg⟩ := pdivmod_spec a hb
  exact (divByMonic_modByMonic_eq hb hsum hdeg).1.symm

theorem toPoly_pdivmod_snd (a : Nat) {b : Nat} (hb : b ≠ 0) : toPoly (pdivmod a b).2 = toPoly a %ₘ toPoly b := by
  obtain ⟨hsum, hdeg⟩ := pdivmod_spec a hb
  exact (divByMonic_modByMonic_eq hb hsum hdeg).2.symm

/-- A remainder of 0 is divisibility. -/
theorem pdivmod_snd_eq_zero_iff (a : Nat) {b : Nat} (hb : b ≠ 0) : (pdivmod a b).2 = 0 ↔ toPoly b ∣ toPoly a := by
  rw [← toPoly_eq_zero_iff, toPoly_pdivmod_snd a hb, modByMonic_eq_zero_iff_dvd (monic_toPoly hb)]

/-- A dividend of lower degree than the divisor is its own remainder. -/
theorem pdivmod_of_deg_lt {a b : Nat} (h : deg a < deg b) : pdivmod a b = (0, a) := by
  have hb : b ≠ 0 := by
    rintro rfl
    have hge : (-1 : Int) ≤ deg a := by unfold deg; split <;> omega
    exact absurd h (Int.not_lt.mpr hge)
  exact (eq_pdivmod hb (by simp) h).symm

/-- Settles O52: division of polynomials with remainder is unique. -/
theorem valueDivisionIsEuclidean : Obligations.ValueDivisionIsEuclidean := by
  intro a b hb
  obtain ⟨hsum, hdeg⟩ := pdivmod_spec a hb
  exact ⟨toPoly_injective (by simpa using hsum.symm), hdeg,
    fun q r hqr hr => eq_pdivmod hb (by simp [hqr]) hr⟩

end Sys2Proof.Machine
end

section
/-! PROOF. The multiplier and the divider of the ring commands (spec/41_polyring.md R83, R92, R93): the values of
their results are the product, the quotient and the remainder of the values. The bit-serial division is told once on
numbers (`bitDiv`), for the divider on sequences here and the divider on words later. -/

namespace Sys2Proof.Machine

open Polynomial

variable {w : Nat}

/-! ### Bits taken from the top -/

/-- The bit above the low `n` bits of a number. -/
theorem toPoly_mod_two_pow_succ (x n : Nat) :
    toPoly (x % 2 ^ (n + 1)) = (if x.testBit n then X ^ n else 0) + toPoly (x % 2 ^ n) := by
  rw [Nat.mod_pow_succ, ← Nat.toNat_testBit, toPoly_add_two_pow_mul (Nat.mod_lt _ (Nat.two_pow_pos n)), add_comm]
  cases x.testBit n <;> simp

theorem toPoly_two_mul (q : Nat) : toPoly (2 * q) = X * toPoly q := by
  have hshift : 2 * q = q <<< 1 := by rw [Nat.shiftLeft_eq, Nat.pow_one, Nat.mul_comm]
  rw [hshift, toPoly_shiftLeft, pow_one]

theorem toPoly_two_mul_add_one (q : Nat) : toPoly (2 * q + 1) = X * toPoly q + 1 := by
  have h := toPoly_add_two_pow_mul (lo := 1) (k := 1) (by decide) q
  rwa [Nat.pow_one, pow_one, toPoly_one, Nat.add_comm, add_comm (1 : (ZMod 2)[X])] at h

/-! ### The product of sequences -/

/-- One step of the multiplier: the accumulator times x, plus the multiplicand if the bit is 1. -/
theorem toPoly_val_ringMulStep (hw : 0 < w) (b acc : Seq w) (bit : Bool) :
    toPoly (val (ringMulStep b acc bit)) =
      X * toPoly (val acc) + (if bit then 1 else 0) * toPoly (val b) := by
  rw [ringMulStep]
  cases bit with
  | true => rw [if_pos rfl, if_pos rfl, val_addInPlace hw, val_shiftLeft hw]; simp
  | false => rw [if_neg Bool.false_ne_true, if_neg Bool.false_ne_true, val_shiftLeft hw]; simp

/-- The steps of the low `n` bits of one word. -/
theorem toPoly_val_foldl_word (hw : 0 < w) (b acc : Seq w) (x : Word w) (n : Nat) :
    toPoly (val (((List.range n).reverse.map fun i => x.getLsbD i).foldl (ringMulStep b) acc)) =
      X ^ n * toPoly (val acc) + toPoly (x.toNat % 2 ^ n) * toPoly (val b) := by
  induction n generalizing acc with
  | zero => simp [Nat.mod_one]
  | succ n ih =>
    rw [List.range_succ, List.reverse_append, List.reverse_singleton, List.singleton_append, List.map_cons,
      List.foldl_cons, ih, toPoly_val_ringMulStep hw, toPoly_mod_two_pow_succ]
    have hbit : x.toNat.testBit n = x.getLsbD n := rfl
    rw [hbit]
    cases x.getLsbD n <;> simp <;> ring

theorem bitsMsbFirst_cons (x : Word w) (q : Seq w) : bitsMsbFirst (x :: q) = bitsMsbFirst q ++ wordBitsMsbFirst x := by
  simp [bitsMsbFirst]

/-- The steps of all bits of a sequence: the accumulator shifted by them, plus the product. -/
theorem toPoly_val_foldl_bits (hw : 0 < w) (b acc a : Seq w) :
    toPoly (val ((bitsMsbFirst a).foldl (ringMulStep b) acc)) =
      X ^ (w * a.length) * toPoly (val acc) + toPoly (val a) * toPoly (val b) := by
  induction a with
  | nil => simp [bitsMsbFirst]
  | cons x a ih =>
    rw [bitsMsbFirst_cons, List.foldl_append, wordBitsMsbFirst, toPoly_val_foldl_word hw, ih, val_cons,
      toPoly_add_two_pow_mul x.isLt, Nat.mod_eq_of_lt x.isLt, List.length_cons, Nat.mul_succ, pow_add]
    ring

/-- The product is the canonical sequence of the carry-less product of the values (41_polyring.md R83). -/
theorem ringMul_eq_canon (hw : 0 < w) (a b : Seq w) : ringMul a b = canon w (clmul (val a) (val b)) := by
  have hzero {m n : Nat} (h : m = 0 ∨ n = 0) : clmul m n = 0 := by
    rw [← toPoly_eq_zero_iff, toPoly_clmul, mul_eq_zero, toPoly_eq_zero_iff, toPoly_eq_zero_iff]
    exact h
  rw [ringMul]
  split
  · rename_i hempty
    simp only [Bool.or_eq_true, List.isEmpty_iff] at hempty
    rw [hzero (hempty.imp (by rintro rfl; rfl) (by rintro rfl; rfl)), canon_zero]
  · rw [cleanUp_eq_canon hw]
    refine congrArg _ (toPoly_injective ?_)
    rw [toPoly_val_foldl_bits hw, toPoly_clmul]
    simp

theorem exec_pmul (d a b : PReg) (s : State) :
    exec (.pmul d a b) s = .next (s.store d (ringMul s.regs.p[a] s.regs.p[b])) := rfl

/-- Settles O43: the product is canonical and has the carry-less product of the values. -/
theorem pmulWritesTheCanonicalProduct : Obligations.PmulWritesTheCanonicalProduct := by
  rintro d a b s q rfl
  rw [← ringMul_eq_canon (bits_pos s.width), exec_pmul]
  exact ⟨fun hfits => congrArg _ (State.store_of_fits d hfits),
    fun n hn hfull => congrArg _ (State.store_of_full d hn hfull)⟩

/-- Settles O55: sum and product are canonical, so their laws are those of XOR and of `clmul` on the values. -/
theorem ringLaws : Obligations.RingLaws := by
  intro width a b d
  have hw := bits_pos width
  simp only [ringAdd_eq_canon hw, ringMul_eq_canon hw, val_canon hw]
  exact ⟨by rw [Nat.xor_comm], by rw [Nat.xor_assoc], by rw [clmul_comm], by rw [clmul_assoc], by rw [clmul_xor],
    by rw [Nat.xor_self, canon_zero]⟩

/-! ### Bit-serial division -/

/-- The bit-serial division on numbers over the positions `db + n - 1` down to `db`: (quotient, remainder). -/
def bitDiv (b db : Nat) : Nat → Nat → Nat → Nat × Nat
  | 0, q, r => (q, r)
  | n + 1, q, r =>
    if r.testBit (db + n) then bitDiv b db n (2 * q + 1) (r ^^^ (b <<< n)) else bitDiv b db n (2 * q) r

/-- Taking the aligned divisor off clears the tested bit. -/
theorem xor_shiftLeft_lt {b r n : Nat} (hb : b ≠ 0) (hr : r < 2 ^ (b.log2 + (n + 1)))
    (hbit : r.testBit (b.log2 + n) = true) : r ^^^ (b <<< n) < 2 ^ (b.log2 + n) := by
  refine Nat.lt_pow_two_of_testBit _ fun i hi => ?_
  rw [Nat.testBit_xor, Nat.testBit_shiftLeft]
  rcases hi.eq_or_lt with rfl | hlt
  · rw [hbit, Nat.add_sub_cancel, Nat.testBit_log2 hb]; simp
  · rw [Nat.testBit_lt_two_pow (hr.trans_le (Nat.pow_le_pow_right (by decide) (by omega))),
      testBit_eq_false_of_log2_lt (by omega : b.log2 < i - n)]
    simp

/-- The bit-serial division keeps quotient times divisor plus rest, and clears every position it passes. -/
theorem bitDiv_spec {b : Nat} (hb : b ≠ 0) {n q r : Nat} (hr : r < 2 ^ (b.log2 + n)) :
    toPoly (bitDiv b b.log2 n q r).1 * toPoly b + toPoly (bitDiv b b.log2 n q r).2 =
      X ^ n * toPoly q * toPoly b + toPoly r ∧ (bitDiv b b.log2 n q r).2 < 2 ^ b.log2 := by
  induction n generalizing q r with
  | zero => exact ⟨by simp [bitDiv], hr⟩
  | succ n ih =>
    rw [bitDiv]
    split
    · rename_i hbit
      obtain ⟨hsum, hlt⟩ := ih (q := 2 * q + 1) (xor_shiftLeft_lt hb hr hbit)
      refine ⟨hsum.trans ?_, hlt⟩
      rw [toPoly_two_mul_add_one, toPoly_xor, toPoly_shiftLeft]
      calc X ^ n * (X * toPoly q + 1) * toPoly b + (toPoly r + X ^ n * toPoly b)
          = X ^ (n + 1) * toPoly q * toPoly b + toPoly r + (X ^ n * toPoly b + X ^ n * toPoly b) := by ring
        _ = X ^ (n + 1) * toPoly q * toPoly b + toPoly r := by rw [CharTwo.add_self_eq_zero, add_zero]
    · rename_i hbit
      have hlow : r < 2 ^ (b.log2 + n) := by
        refine Nat.lt_pow_two_of_testBit _ fun i hi => ?_
        rcases hi.eq_or_lt with rfl | hlt
        · simpa using hbit
        · exact Nat.testBit_lt_two_pow (hr.trans_le (Nat.pow_le_pow_right (by decide) (by omega)))
      obtain ⟨hsum, hlt⟩ := ih (q := 2 * q) hlow
      refine ⟨hsum.trans ?_, hlt⟩
      rw [toPoly_two_mul]; ring

/-- Started with the divisor aligned at or above the dividend's top bit, the bit-serial division is `pdivmod`. -/
theorem bitDiv_eq_pdivmod {a b n : Nat} (hb : b ≠ 0) (ha : a < 2 ^ (b.log2 + n)) :
    bitDiv b b.log2 n 0 a = pdivmod a b := by
  obtain ⟨hsum, hlt⟩ := bitDiv_spec hb (q := 0) ha
  refine eq_pdivmod hb (by simpa using hsum) ?_
  rw [← degree_toPoly_lt_degree_iff, degree_eq_natDegree (mt toPoly_eq_zero_iff.mp hb), natDegree_toPoly]
  exact degree_toPoly_lt_iff.mpr hlt

/-- The positions the dividers pass are those up to the dividend's top bit. -/
theorem lt_two_pow_of_deg_le {a b : Nat} (hb : b ≠ 0) (h : deg b ≤ deg a) :
    a < 2 ^ (b.log2 + ((deg a - deg b).toNat + 1)) := by
  have ha : a ≠ 0 := by
    rintro rfl
    simp only [deg, if_true, if_neg hb] at h
    omega
  have hexp : b.log2 + ((deg a - deg b).toNat + 1) = a.log2 + 1 := by
    simp only [deg, if_neg ha, if_neg hb] at h ⊢
    omega
  rw [hexp]; exact Nat.lt_log2_self

theorem deg_toNat {b : Nat} (hb : b ≠ 0) : (deg b).toNat = b.log2 := by rw [deg, if_neg hb, Int.toNat_natCast]

/-! ### The division of sequences -/

/-- Setting the low bit of a number that is even. -/
theorem or_one_of_even {x : Nat} (h : x % 2 = 0) : x ||| 1 = x + 1 := by
  have hx : x = 2 ^ 1 * (x / 2) := by omega
  rw [hx, ← Nat.two_pow_add_eq_or_of_lt (by decide)]

theorem val_setLowBit (hw : 0 < w) {q : Seq w} (h : val q % 2 = 0) : val (setLowBit q) = val q + 1 := by
  have hone := BitVec.toNat_one hw
  cases q with
  | nil => simp [setLowBit, val_cons, hone]
  | cons x q =>
    have heven : x.toNat % 2 = 0 := by
      rw [← val_mod_two_pow x q, Nat.mod_mod_of_dvd _ (dvd_pow_self 2 hw.ne'), h]
    rw [setLowBit, val_cons, BitVec.toNat_or, hone, or_one_of_even heven, val_cons, Nat.add_right_comm]

theorem val_setLowBit_shiftLeft (hw : 0 < w) (q : Seq w) : val (setLowBit (shiftLeft q)) = 2 * val q + 1 := by
  have hshift : val (shiftLeft q) = 2 * val q := by rw [val_shiftLeft hw, Nat.shiftLeft_eq]; omega
  rw [val_setLowBit hw (by omega), hshift]

/-- One position down, the aligned divisor moves right by one. -/
theorem shiftLeft_succ_shiftRight_one (b n : Nat) : (b <<< (n + 1)) >>> 1 = b <<< n := by
  rw [Nat.shiftLeft_succ, Nat.mul_comm, Nat.shiftRight_one]; omega

/-- The divider on sequences goes through the numbers that are their values. -/
theorem val_ringDivLoop (hw : 0 < w) (b dd : Nat) {n : Nat} {res rem sd : Seq w} (hsd : val sd = (b <<< n) >>> 1) :
    (val (ringDivLoop dd n res rem sd).1, val (ringDivLoop dd n res rem sd).2) =
      bitDiv b dd n (val res) (val rem) := by
  induction n generalizing res rem sd with
  | zero => rfl
  | succ n ih =>
    have haligned : val sd = b <<< n := hsd.trans (shiftLeft_succ_shiftRight_one b n)
    have hnext : val (shiftRight sd) = (b <<< n) >>> 1 := by rw [val_shiftRight hw, haligned]
    rw [ringDivLoop, bitDiv, testBit_val hw]
    split
    · rw [ih hnext, val_setLowBit_shiftLeft hw, val_addInPlace hw, haligned]
    · rw [ih hnext, val_shiftLeft hw, Nat.shiftLeft_eq, Nat.pow_one, Nat.mul_comm]

/-- The bit-serial part of the divider, for a dividend of no lower degree than the divisor (41_polyring.md R93). -/
theorem ringDiv_of_le (hw : 0 < w) {v d : Seq w} (hd : val d ≠ 0) (h : deg (val d) ≤ deg (val v)) :
    ringDiv v d = (canon w (pdivmod (val v) (val d)).1, canon w (pdivmod (val v) (val d)).2) := by
  have hlt : ¬ degree v < degree d := by rw [degree_eq_deg_val hw, degree_eq_deg_val hw]; omega
  rw [ringDiv, if_neg hlt]
  simp only [cleanUp_eq_canon hw, degree_eq_deg_val hw, deg_toNat hd]
  have hout := val_ringDivLoop hw (val d) (val d).log2 (n := (deg (val v) - deg (val d)).toNat + 1) (res := [])
    (rem := v) (sd := shiftLeftByBits d (deg (val v) - deg (val d)).toNat) (by
      rw [val_shiftLeftByBits hw, shiftLeft_succ_shiftRight_one])
  rw [val_nil, bitDiv_eq_pdivmod hd (lt_two_pow_of_deg_le hd h)] at hout
  obtain ⟨hq, hr⟩ := Prod.ext_iff.mp hout
  rw [← hq, ← hr]

/-- The early exit of the divider (41_polyring.md R92). -/
theorem ringDiv_of_lt (hw : 0 < w) {v d : Seq w} (h : deg (val v) < deg (val d)) : ringDiv v d = ([], v) := by
  have hlt : degree v < degree d := by rw [degree_eq_deg_val hw, degree_eq_deg_val hw]; exact h
  rw [ringDiv, if_pos hlt]

theorem exec_pdiv {d e : PReg} (hne : d ≠ e) (a b : PReg) (s : State) (hb : val s.regs.p[b] ≠ 0) :
    exec (.pdiv d e a b) s = .next { s with regs := { s.regs with
      p := (s.regs.p.set d (ringDiv s.regs.p[a] (cleanUp s.regs.p[b])).1).set e
        (ringDiv s.regs.p[a] (cleanUp s.regs.p[b])).2
      status := 0 } } := by
  have hclean : ¬ (cleanUp (s.regs.readP b)).isEmpty = true := by
    intro hempty
    apply hb
    rw [← val_cleanUp (bits_pos s.width)]
    exact (congrArg val (List.isEmpty_iff.mp hempty)).trans val_nil
  exact (if_neg hne).trans (if_neg hclean)

theorem exec_pdiv_zero {d e : PReg} (hne : d ≠ e) (a b : PReg) (s : State) (hb : val s.regs.p[b] = 0) :
    exec (.pdiv d e a b) s = .next { s with regs := { s.regs with status := 1 } } := by
  have hclean : (cleanUp (s.regs.readP b)).isEmpty = true := by
    have hval : val (s.regs.readP b) = 0 := hb
    rw [cleanUp_eq_canon (bits_pos s.width), hval]; rfl
  exact (if_neg hne).trans (if_pos hclean)

/-- Settles O51: the early exit and the bit-serial procedure both have the values of `pdivmod`. -/
theorem pdivRefinesPolynomialDivision : Obligations.PdivRefinesPolynomialDivision := by
  intro d e a b s hne
  have hw := bits_pos s.width
  refine ⟨exec_pdiv_zero hne a b s, fun hb hlt => ?_, fun hb hle => ?_⟩
  · rw [exec_pdiv hne a b s hb, ringDiv_of_lt hw (by rwa [val_cleanUp hw])]
  · rw [exec_pdiv hne a b s hb, ringDiv_of_le hw (by rwa [val_cleanUp hw]) (by rwa [val_cleanUp hw]), val_cleanUp hw]

/-- In both cases the results have the values of `pdivmod`. -/
theorem val_ringDiv (hw : 0 < w) (v : Seq w) {d : Seq w} (hd : val d ≠ 0) :
    val (ringDiv v d).1 = (pdivmod (val v) (val d)).1 ∧ val (ringDiv v d).2 = (pdivmod (val v) (val d)).2 := by
  rcases lt_or_ge (deg (val v)) (deg (val d)) with hlt | hge
  · rw [ringDiv_of_lt hw hlt, pdivmod_of_deg_lt hlt]; exact ⟨rfl, rfl⟩
  · rw [ringDiv_of_le hw hd hge]; exact ⟨val_canon hw _, val_canon hw _⟩

/-- Settles O54, on the values: the contract of `pdivmod`. -/
theorem divisionRebuildsTheDividend : Obligations.DivisionRebuildsTheDividend := by
  intro width a b ha
  have hw := bits_pos width
  obtain ⟨hq, hr⟩ := val_ringDiv hw b (d := cleanUp a) (by rwa [val_cleanUp hw])
  rw [val_cleanUp hw] at hq hr
  rw [ringAdd_eq_canon hw, ringMul_eq_canon hw, val_canon hw, hq, hr, cleanUp_eq_canon hw]
  refine congrArg _ (toPoly_injective ?_)
  rw [toPoly_xor, toPoly_clmul, (pdivmod_spec (val b) ha).1]

/-! ### The results of the divider fit where the dividend fits -/

theorem pdivmod_fst_lt_two_pow {a b k : Nat} (hb : b ≠ 0) (h : a < 2 ^ k) : (pdivmod a b).1 < 2 ^ k := by
  rw [← degree_toPoly_lt_iff, toPoly_pdivmod_fst a hb]
  exact (degree_divByMonic_le _ _).trans_lt (degree_toPoly_lt_iff.mpr h)

theorem pdivmod_snd_lt_two_pow {a b k : Nat} (hb : b ≠ 0) (h : a < 2 ^ k) : (pdivmod a b).2 < 2 ^ k := by
  rw [← degree_toPoly_lt_iff, toPoly_pdivmod_snd a hb]
  exact (degree_modByMonic_le_left).trans_lt (degree_toPoly_lt_iff.mpr h)

theorem length_ringDiv_le (hw : 0 < w) (v : Seq w) {d : Seq w} (hd : val d ≠ 0) :
    (ringDiv v d).1.length ≤ v.length ∧ (ringDiv v d).2.length ≤ v.length := by
  rcases lt_or_ge (deg (val v)) (deg (val d)) with hlt | hge
  · rw [ringDiv_of_lt hw hlt]; exact ⟨Nat.zero_le _, Nat.le_refl _⟩
  · rw [ringDiv_of_le hw hd hge]
    exact ⟨length_canon_le (pdivmod_fst_lt_two_pow hd (val_lt_two_pow v)),
      length_canon_le (pdivmod_snd_lt_two_pow hd (val_lt_two_pow v))⟩

end Sys2Proof.Machine
end

section
/-! PROOF. The invariant every step keeps (spec/00_scope.md section 4, spec/10_state.md sections 4 to 6): each write
keeps the ranges of the registers (`RegsInv`), each command is a sequence of such writes, each transaction a command,
a port access or a reset. -/

namespace Sys2Proof.Machine

/-! ### The invariant of the registers -/

/-- The registers `r` of a machine of the width and capacity of `s` are in their ranges. -/
structure RegsInv (s : State) (r : Regs s.width.bits) : Prop where
  fits : ∀ i : PReg, s.fits (r.readP i).length = true
  status_le : r.status.toNat ≤ 4
  res_range : ∀ n, s.lmax = some n → -1 ≤ r.res.toInt ∧ r.res.toInt ≤ (n : Int) * s.width.bits - 1

theorem State.inv_iff_regsInv (s : State) : s.inv = true ↔ s.instanceLegal = true ∧ RegsInv s s.regs := by
  rw [s.inv_iff, s.withinCapacity_iff, s.resLegal_iff]
  exact ⟨fun ⟨hlegal, hfits, hstatus, hres⟩ => ⟨hlegal, hfits, hstatus, hres⟩,
    fun ⟨hlegal, hfits, hstatus, hres⟩ => ⟨hlegal, hfits, hstatus, hres⟩⟩

namespace RegsInv

variable {s : State} {r : Regs s.width.bits}

theorem writeF (h : RegsInv s r) (d : FReg) (v : Word s.width.bits) : RegsInv s (r.writeF d v) :=
  ⟨h.fits, h.status_le, h.res_range⟩

theorem writeModsub (h : RegsInv s r) (c : Word s.width.bits) : RegsInv s (r.writeModsub c) :=
  ⟨h.fits, h.status_le, h.res_range⟩

theorem writeP (h : RegsInv s r) (d : PReg) {q : Seq s.width.bits} (hq : s.fits q.length = true) :
    RegsInv s (r.writeP d q) := by
  refine ⟨fun j => ?_, h.status_le, h.res_range⟩
  by_cases hjd : j = d
  · rw [hjd, Regs.readP_writeP]; exact hq
  · rw [Regs.readP_writeP_ne r d j q hjd]; exact h.fits j

theorem writeStatus (h : RegsInv s r) {code : BitVec 8} (hcode : code.toNat ≤ 4) : RegsInv s (r.writeStatus code) :=
  ⟨h.fits, hcode, h.res_range⟩

theorem writeRes (h : RegsInv s r) {v : BitVec 32}
    (hv : ∀ n, s.lmax = some n → -1 ≤ v.toInt ∧ v.toInt ≤ (n : Int) * s.width.bits - 1) : RegsInv s (r.writeRes v) :=
  ⟨h.fits, h.status_le, hv⟩

/-- A buffer no longer than one that fits. -/
theorem fits_of_le (h : RegsInv s r) (i : PReg) {n : Nat} (hn : n ≤ (r.readP i).length) : s.fits n = true :=
  State.fits_mono (h.fits i) hn

end RegsInv

/-! ### Values of RES -/

theorem neg_one_le_deg (n : Nat) : -1 ≤ deg n := by unfold deg; split <;> omega

theorem deg_lt_of_lt_two_pow {n k : Nat} (h : n < 2 ^ k) : deg n < k := by
  rw [deg]
  split
  · omega
  · rename_i hn
    exact_mod_cast (Nat.log2_lt hn).mpr h

/-- RES holds a degree that fits as the integer it is (10_state.md R13). -/
theorem toInt_resOfDegree (w value : Nat) {d : Int} (hlow : -1 ≤ d) (hhigh : d < 2 ^ 31) :
    (resOfDegree w value d).toInt = d := by
  rw [resOfDegree, if_pos hhigh, BitVec.toInt_ofInt, Int.bmod_eq_of_le] <;> omega

/-- A degree below the bits of a full buffer is a legal content of RES. -/
theorem resOfDegree_range {s : State} (hlegal : s.instanceLegal = true) (value : Nat) {d : Int} (hlow : -1 ≤ d)
    (hhigh : ∀ n, s.lmax = some n → d < (n : Int) * s.width.bits) : ∀ n, s.lmax = some n →
    -1 ≤ (resOfDegree s.width.bits value d).toInt ∧
      (resOfDegree s.width.bits value d).toInt ≤ (n : Int) * s.width.bits - 1 := by
  intro n hn
  obtain ⟨-, hcap⟩ := s.instanceLegal_iff.mp hlegal n hn
  have hcast : (n : Int) * s.width.bits ≤ 2 ^ 31 - 1 := by
    have h := Int.ofNat_le.mpr hcap
    push_cast at h
    exact h
  have hd := hhigh n hn
  rw [toInt_resOfDegree _ _ hlow (by omega)]
  omega

theorem resOfBit_range {s : State} (hlegal : s.instanceLegal = true) (b : Bool) : ∀ n, s.lmax = some n →
    -1 ≤ (resOfBit b).toInt ∧ (resOfBit b).toInt ≤ (n : Int) * s.width.bits - 1 := by
  intro n hn
  have hcap := State.le_one_le_capacity hlegal hn
  have hbit : -1 ≤ (resOfBit b).toInt ∧ (resOfBit b).toInt ≤ 1 := by cases b <;> decide
  omega

/-! ### Commands -/

/-- `o` is a next state of the width and capacity of `s` whose registers are in their ranges. -/
def OutcomeInv (s : State) (o : Host.Outcome State Fault Refusal) : Prop :=
  ∃ r, o = .next { s with regs := r } ∧ RegsInv s r

section OutcomeInv

variable {s : State}

theorem outcomeInv_complete {r : Regs s.width.bits} (h : RegsInv s r) : OutcomeInv s (.next (s.complete r)) :=
  ⟨_, rfl, h.writeStatus (by decide)⟩

theorem outcomeInv_raise (h : RegsInv s s.regs) (k : Failure) : OutcomeInv s (.next (s.raise k)) :=
  ⟨_, rfl, h.writeStatus (by cases k <;> decide)⟩

theorem outcomeInv_store (h : RegsInv s s.regs) (d : PReg) (q : Seq s.width.bits) :
    OutcomeInv s (.next (s.store d q)) := by
  obtain ⟨hfits, hstore⟩ | ⟨-, hstore⟩ := s.store_cases d q <;> rw [hstore]
  · exact outcomeInv_complete (h.writeP d hfits)
  · exact outcomeInv_raise h .capacityExceeded

theorem outcomeInv_raiseIf (h : RegsInv s s.regs) {c : Prop} [Decidable c] {k : Failure}
    {o : Host.Outcome State Fault Refusal} (ho : ¬ c → OutcomeInv s o) :
    OutcomeInv s (if c then .next (s.raise k) else o) := by
  split
  case isTrue => exact outcomeInv_raise h k
  case isFalse hc => exact ho hc

end OutcomeInv

/-- The longer of two buffers fits. -/
theorem RegsInv.fits_max {s : State} (h : RegsInv s s.regs) (i j : PReg) :
    s.fits (max (s.regs.readP i).length (s.regs.readP j).length) = true := by
  rcases Nat.le_total (s.regs.readP i).length (s.regs.readP j).length with hle | hle
  · rw [Nat.max_eq_right hle]; exact h.fits j
  · rw [Nat.max_eq_left hle]; exact h.fits i

/-- Every command keeps the registers in their ranges. PONE writes one word, which a legal LMAX admits; the sum, the
quotient and the remainder are no longer than a source; the product and the shifts left are checked. -/
theorem exec_inv {s : State} (hlegal : s.instanceLegal = true) (h : RegsInv s s.regs) (i : Instr) :
    OutcomeInv s (exec i s) := by
  have hw := bits_pos s.width
  cases i
  case setmod | defmod => exact outcomeInv_complete (h.writeModsub _)
  case fzero | fone | fadd | fmul | fneg | fexp => exact outcomeInv_complete (h.writeF _ _)
  case finv | fginv => exact outcomeInv_raiseIf h fun _ => outcomeInv_complete (h.writeF _ _)
  case fdiv | fmdiv =>
    exact outcomeInv_raiseIf h fun _ => outcomeInv_raiseIf h fun _ => outcomeInv_complete ((h.writeF _ _).writeF _ _)
  case fbit | pbit => exact outcomeInv_complete (h.writeRes (resOfBit_range hlegal _))
  case fdeg ra =>
    refine outcomeInv_complete (h.writeRes (resOfDegree_range hlegal _ (neg_one_le_deg _) fun n hn => ?_))
    have hdeg := deg_lt_of_lt_two_pow (s.regs.readF ra).isLt
    have hcap : (s.width.bits : Int) ≤ n * s.width.bits := by exact_mod_cast State.width_le_capacity hlegal hn
    exact hdeg.trans_le hcap
  case pdeg ra =>
    refine outcomeInv_complete (h.writeRes (resOfDegree_range hlegal _ ?_ fun n hn => ?_)) <;>
      rw [degree_eq_deg_val hw]
    · exact neg_one_le_deg _
    · have hdeg := deg_lt_of_lt_two_pow (val_lt_two_pow (s.regs.readP ra))
      have hlen := (s.fits_iff _).mp (h.fits ra) n hn
      have hcap : ((s.width.bits * (s.regs.readP ra).length : Nat) : Int) ≤ n * s.width.bits := by
        rw [Nat.mul_comm]; exact_mod_cast Nat.mul_le_mul_right _ hlen
      exact hdeg.trans_le hcap
  case pzero rd => exact outcomeInv_complete (h.writeP rd (h.fits_of_le rd (Nat.zero_le _)))
  case pone rd =>
    exact outcomeInv_complete (h.writeP rd ((s.fits_iff 1).mpr fun n hn => (s.instanceLegal_iff.mp hlegal n hn).1))
  case padd rd ra rb =>
    refine outcomeInv_complete (h.writeP rd (State.fits_mono (h.fits_max ra rb) ?_))
    exact (length_cleanUp_le _).trans (length_addInPlace _ _).le
  case paddi rd ra =>
    refine outcomeInv_raiseIf h fun _ => outcomeInv_complete (h.writeP rd ?_)
    rw [length_addInPlace]; exact h.fits_max rd ra
  case pneg rd ra => exact outcomeInv_complete (h.writeP rd (h.fits ra))
  case pshr1 rd => exact outcomeInv_complete (h.writeP rd (h.fits_of_le rd (length_shiftRight _).le))
  case pclean rd => exact outcomeInv_complete (h.writeP rd (h.fits_of_le rd (length_cleanUp_le _)))
  case pmul | pshl1 | pshl => exact outcomeInv_store h _ _
  case pdiv rd re ra rb =>
    refine outcomeInv_raiseIf h fun _ => outcomeInv_raiseIf h fun hempty => ?_
    have hd : val (cleanUp (s.regs.readP rb)) ≠ 0 := fun hzero =>
      hempty (List.isEmpty_iff.mpr (eq_nil_of_val_eq_zero (canonical_cleanUp _) hzero))
    obtain ⟨hq, hr⟩ := length_ringDiv_le hw (s.regs.readP ra) hd
    exact outcomeInv_complete ((h.writeP rd (h.fits_of_le ra hq)).writeP re (h.fits_of_le ra hr))

/-! ### Transactions -/

/-- A transaction keeps the invariant. -/
theorem State.perform_inv {s u : State} {t : Transaction} (hinv : s.inv = true) (hperform : s.perform t = .next u) :
    u.inv = true := by
  obtain ⟨hlegal, h⟩ := s.inv_iff_regsInv.mp hinv
  have inv_with {r : Regs s.width.bits} (hr : RegsInv s r) (rs : List Response) :
      State.inv { s with regs := r, returned := rs } = true :=
    (State.inv_iff_regsInv _).mpr ⟨hlegal, hr.fits, hr.status_le, hr.res_range⟩
  cases t with
  | reset =>
    obtain rfl := Host.Outcome.next.inj hperform
    exact State.inv_of_resetRegs hlegal rfl
  | portRead sel k =>
    obtain rfl := Host.Outcome.next.inj hperform
    exact inv_with h _
  | portWrite sel k v =>
    obtain rfl := Host.Outcome.next.inj hperform
    obtain ⟨i, -, hwrite⟩ | ⟨i, -, hwrite⟩ | ⟨i, -, hwrite⟩ | ⟨-, hwrite⟩ := s.portWrite_cases sel k v <;> rw [hwrite]
    · exact inv_with (h.writeF i _) _
    · obtain ⟨hfits, hlength⟩ | ⟨-, hlength⟩ := s.writeLength_cases i (v.setWidth 32).toNat <;> rw [hlength]
      · exact inv_with (h.writeP i (by rwa [length_resize])) _
      · exact hinv
    · exact inv_with (h.writeP i (by rw [List.length_set]; exact h.fits i)) _
    · exact hinv
  | issue cw =>
    obtain ⟨r, a, hissue, hr⟩ := s.issue_writes cw
    obtain rfl := Host.Outcome.next.inj (hissue.symm.trans hperform)
    obtain ⟨e, -, rfl⟩ | ⟨i, -, hexec, -⟩ := hr
    · exact inv_with (h.writeStatus (by decide)) _
    · obtain ⟨r', hr', hinv'⟩ := exec_inv hlegal h i
      have hafter : State.inv { s with regs := r } = true := by
        rw [Host.Outcome.next.inj (hexec.symm.trans hr')]
        exact inv_with hinv' s.returned
      exact hafter

/-- Settles O12: idle or performing a transaction, a step keeps the invariant. -/
theorem stepKeepsTheInvariant : Obligations.StepKeepsTheInvariant := by
  intro s t hinv hstep
  obtain ⟨-, h⟩ | ⟨tr, rest, -, h⟩ := step_cases s
  · obtain rfl := Host.Outcome.next.inj (hstep.symm.trans h)
    exact hinv
  · exact State.perform_inv (s := { s with pending := rest }) hinv (h.symm.trans hstep)

end Sys2Proof.Machine
end

section
/-! PROOF. The field commands FMUL, FINV and FEXP (spec/42_field.md R127, R129, R131). A word is read as its residue
class modulo 2^W + MODSUB (`residue`), where the procedures are multiplications and powers; a class has one word, so
what the procedures compute follows from the laws of a commutative ring, for every MODSUB. -/

namespace Sys2Proof.Machine

open Polynomial

variable {w : Nat}

/-! ### The modulus -/

theorem modulus_ne_zero (c : Word w) : modulus c ≠ 0 := by
  have := Nat.two_pow_pos w
  rw [modulus]; omega

theorem toPoly_modulus (c : Word w) : toPoly (modulus c) = X ^ w + toPoly c.toNat := by
  have h := toPoly_add_two_pow_mul c.isLt 1
  rwa [Nat.mul_one, toPoly_one, mul_one, Nat.add_comm, add_comm (toPoly c.toNat)] at h

theorem log2_modulus (c : Word w) : (modulus c).log2 = w := by
  rw [Nat.log2_eq_iff (modulus_ne_zero c), modulus, Nat.pow_succ]
  have := c.isLt
  omega

theorem degree_modulus (c : Word w) : (toPoly (modulus c)).degree = w := by
  rw [degree_eq_natDegree (monic_toPoly (modulus_ne_zero c)).ne_zero, natDegree_toPoly, log2_modulus]

theorem fieldmul_lt (c : Word w) (a b : Nat) : fieldmul (modulus c) a b < 2 ^ w := by
  rw [← degree_toPoly_lt_iff, ← degree_modulus c, degree_toPoly_lt_degree_iff]
  exact (pdivmod_spec _ (modulus_ne_zero c)).2

/-! ### Residue classes -/

/-- The class of a number, as a polynomial, modulo 2^W + C. -/
noncomputable def residue (c : Word w) (n : Nat) : AdjoinRoot (toPoly (modulus c)) :=
  AdjoinRoot.mk (toPoly (modulus c)) (toPoly n)

section Residue

variable (c : Word w)

theorem residue_eq_iff {m n : Nat} :
    residue c m = residue c n ↔ toPoly (modulus c) ∣ toPoly m + toPoly n := by
  rw [residue, residue, AdjoinRoot.mk_eq_mk, CharTwo.sub_eq_add]

/-- A class has only one word. -/
theorem eq_of_residue_eq {m n : Nat} (hm : m < 2 ^ w) (hn : n < 2 ^ w) (h : residue c m = residue c n) : m = n := by
  rw [residue_eq_iff, ← toPoly_xor] at h
  have hlow : (toPoly (m ^^^ n)).degree < (toPoly (modulus c)).degree := by
    rw [degree_modulus, degree_toPoly_lt_iff]
    exact Nat.xor_lt_two_pow hm hn
  exact Nat.xor_eq_zero_iff.mp (toPoly_eq_zero_iff.mp (eq_zero_of_dvd_of_degree_lt h hlow))

theorem word_eq_of_residue_eq {x y : Word w} (h : residue c x.toNat = residue c y.toNat) : x = y :=
  BitVec.eq_of_toNat_eq (eq_of_residue_eq c x.isLt y.isLt h)

@[simp] theorem residue_zero : residue c 0 = 0 := by simp [residue]

@[simp] theorem residue_one : residue c 1 = 1 := by simp [residue]

@[simp] theorem residue_xor (m n : Nat) : residue c (m ^^^ n) = residue c m + residue c n := by simp [residue]

theorem residue_add_self (x : AdjoinRoot (toPoly (modulus c))) : x + x = 0 := by
  obtain ⟨p, rfl⟩ := AdjoinRoot.mk_surjective x
  rw [← map_add, CharTwo.add_self_eq_zero, map_zero]

/-- The top of the modulus is its low part: the subtraction of R127. -/
theorem residue_two_pow : residue c (2 ^ w) = residue c c.toNat := by
  rw [residue_eq_iff, toPoly_two_pow, ← toPoly_modulus]

@[simp] theorem residue_modulus : residue c (modulus c) = 0 := by rw [residue, AdjoinRoot.mk_self]

/-- The reference product of 42_field.md R120 is the product of the classes. -/
@[simp] theorem residue_fieldmul (a b : Nat) : residue c (fieldmul (modulus c) a b) = residue c a * residue c b := by
  obtain ⟨hsum, -⟩ := pdivmod_spec (clmul a b) (modulus_ne_zero c)
  have h := congrArg (AdjoinRoot.mk (toPoly (modulus c))) hsum
  rwa [map_add, map_mul, AdjoinRoot.mk_self, mul_zero, zero_add, toPoly_clmul, map_mul] at h

/-- The reference power is the power of the class. -/
@[simp] theorem residue_fieldpow (a e : Nat) : residue c (fieldpow (modulus c) a e) = residue c a ^ e := by
  induction e with
  | zero => rw [fieldpow, residue_one, pow_zero]
  | succ e ih => rw [fieldpow, residue_fieldmul, ih, pow_succ]

theorem fieldpow_lt (hw : 0 < w) (a e : Nat) : fieldpow (modulus c) a e < 2 ^ w := by
  cases e with
  | zero => exact Nat.one_lt_two_pow hw.ne'
  | succ e => exact fieldmul_lt c _ a

end Residue

/-! ### Words -/

theorem toNat_one (hw : 0 < w) : (1 : Word w).toNat = 1 := BitVec.toNat_one hw

/-- A word shifted left, with the bit that leaves it. -/
theorem two_mul_toNat (hw : 0 < w) (x : Word w) : 2 * x.toNat = (x <<< 1).toNat + 2 ^ w * x.msb.toNat := by
  have hpow : 2 ^ w = 2 * 2 ^ (w - 1) := by rw [← Nat.pow_succ', Nat.succ_eq_add_one, Nat.sub_add_cancel hw]
  have hx := x.isLt
  rw [BitVec.toNat_shiftLeft, BitVec.msb_eq_decide, Nat.shiftLeft_eq, Nat.pow_one, Nat.mul_comm x.toNat]
  by_cases htop : 2 ^ (w - 1) ≤ x.toNat
  · rw [Nat.mod_eq_sub_mod (by omega), Nat.mod_eq_of_lt (by omega), decide_eq_true htop, Bool.toNat_true]
    omega
  · rw [Nat.mod_eq_of_lt (by omega), decide_eq_false htop, Bool.toNat_false]
    omega

/-- Shifting a word left multiplies its class by x, when the reduction constant goes in for the bit that leaves. -/
theorem residue_shiftLeft_one (hw : 0 < w) (c x : Word w) :
    residue c (x <<< 1).toNat + (if x.msb then residue c c.toNat else 0) =
      AdjoinRoot.root (toPoly (modulus c)) * residue c x.toNat := by
  have hpoly : toPoly (x <<< 1).toNat + X ^ w * toPoly x.msb.toNat = X * toPoly x.toNat := by
    rw [← toPoly_add_two_pow_mul (x <<< 1).isLt, ← two_mul_toNat hw, toPoly_two_mul]
  have h := congrArg (AdjoinRoot.mk (toPoly (modulus c))) hpoly
  rw [map_add, map_mul, map_mul, AdjoinRoot.mk_X, ← toPoly_two_pow] at h
  rw [← residue_two_pow]
  refine Eq.trans ?_ h
  cases x.msb <;> simp [residue]

/-! ### The field multiplier -/

/-- One iteration multiplies the class of the product by x and adds the multiplicand if the scanned bit is 1. -/
theorem residue_fmulStep (hw : 0 < w) (a c : Word w) (bit : Bool) (prod : Word w) :
    residue c (fmulStep a c bit prod).toNat =
      AdjoinRoot.root (toPoly (modulus c)) * residue c prod.toNat + (if bit then residue c a.toNat else 0) := by
  rw [← residue_shiftLeft_one hw, fmulStep]
  cases bit <;> cases prod.msb <;> simp; ring

theorem msb_shiftLeft_sub {n : Nat} (hn : n + 1 ≤ w) (b : Word w) :
    (b <<< (w - (n + 1))).msb = b.toNat.testBit n := by
  have hlow : ¬ w - 1 < w - (n + 1) := by omega
  have hindex : w - 1 - (w - (n + 1)) = n := by omega
  rw [BitVec.msb_eq_getLsbD_last, BitVec.getLsbD_shiftLeft, hindex, BitVec.testBit_toNat]
  simp [hlow, show w - 1 < w by omega]

/-- The iterations of the low `n` bits of the multiplier. -/
theorem residue_fmulLoop (hw : 0 < w) (a b c : Word w) {n : Nat} (hn : n ≤ w) (prod : Word w) :
    residue c (fmulLoop a c n prod (b <<< (w - n))).toNat =
      AdjoinRoot.root (toPoly (modulus c)) ^ n * residue c prod.toNat +
        residue c (b.toNat % 2 ^ n) * residue c a.toNat := by
  induction n generalizing prod with
  | zero => simp [fmulLoop, Nat.mod_one]
  | succ n ih =>
    have hshift : b <<< (w - (n + 1)) <<< 1 = b <<< (w - n) := by
      rw [← BitVec.shiftLeft_add]; congr 1; omega
    have hlow : residue c (b.toNat % 2 ^ (n + 1)) =
        (if b.toNat.testBit n then AdjoinRoot.root (toPoly (modulus c)) ^ n else 0) + residue c (b.toNat % 2 ^ n) := by
      rw [residue, toPoly_mod_two_pow_succ, map_add, residue]
      cases b.toNat.testBit n <;> simp
    rw [fmulLoop, hshift, ih (by omega), residue_fmulStep hw, msb_shiftLeft_sub hn, hlow]
    cases b.toNat.testBit n <;> simp <;> ring

/-- The field product of two words is the product of their classes. -/
@[simp] theorem residue_fmul (hw : 0 < w) (a b c : Word w) :
    residue c (fmul a b c).toNat = residue c a.toNat * residue c b.toNat := by
  have h := residue_fmulLoop hw a b c le_rfl 0#w
  rw [Nat.sub_self, BitVec.shiftLeft_zero, Nat.mod_eq_of_lt b.isLt] at h
  rw [fmul, h, BitVec.toNat_zero, residue_zero, mul_zero, zero_add, mul_comm]

/-- A word is what a number below 2^W of the same class gives. -/
theorem ofNat_eq_of_residue_eq {c x : Word w} {n : Nat} (hn : n < 2 ^ w) (h : residue c n = residue c x.toNat) :
    BitVec.ofNat w n = x := by
  rw [eq_of_residue_eq c hn x.isLt h, BitVec.ofNat_toNat, BitVec.setWidth_eq]

theorem exec_fmul (d a b : FReg) (s : State) : exec (.fmul d a b) s = .next { s with regs := { s.regs with
    f := s.regs.f.set d (fmul s.regs.f[a] s.regs.f[b] s.regs.modsub), status := 0 } } := rfl

/-- Settles O29: procedure and reference value have the same class. -/
theorem fmulWritesTheFieldProduct : Obligations.FmulWritesTheFieldProduct := by
  intro d a b s
  rw [exec_fmul, ofNat_eq_of_residue_eq (fieldmul_lt s.regs.modsub _ _)]
  rw [residue_fieldmul, residue_fmul (bits_pos s.width)]

/-- Settles O30: the classes form a commutative ring. -/
theorem fmulLaws : Obligations.FmulLaws := by
  intro width a b d c
  have hw := bits_pos width
  refine ⟨word_eq_of_residue_eq c ?_, word_eq_of_residue_eq c ?_, word_eq_of_residue_eq c ?_,
    word_eq_of_residue_eq c ?_, word_eq_of_residue_eq c ?_⟩
  · rw [residue_fmul hw, residue_fmul hw, mul_comm]
  · rw [residue_fmul hw, residue_fmul hw, residue_fmul hw, residue_fmul hw, mul_assoc]
  · rw [BitVec.toNat_xor, residue_xor, residue_fmul hw, residue_fmul hw, residue_fmul hw, BitVec.toNat_xor, residue_xor,
      mul_add]
  · rw [residue_fmul hw, toNat_one hw, residue_one, mul_one]
  · rw [residue_fmul hw, toNat_one hw, residue_one, one_mul]

/-! ### The Fermat inverter -/

theorem residue_finvLoop (hw : 0 < w) (a c : Word w) (n : Nat) (r : Word w) :
    residue c (finvLoop a c n r).toNat = residue c r.toNat ^ 2 ^ n * residue c a.toNat ^ (2 ^ n - 1) := by
  induction n generalizing r with
  | zero => simp [finvLoop]
  | succ n ih =>
    have hexp : 2 ^ (n + 1) - 1 = 2 ^ n + (2 ^ n - 1) := by have := Nat.two_pow_pos n; omega
    rw [finvLoop, ih, residue_fmul hw, residue_fmul hw, hexp, Nat.pow_succ', pow_add, pow_mul, mul_pow, pow_two,
      mul_assoc]

/-- The word FINV writes is the power 2^W - 2 of its source (42_field.md R129). -/
theorem residue_finv (hw : 0 < w) (a c : Word w) :
    residue c (finv a c).toNat = residue c a.toNat ^ (2 ^ w - 2) := by
  have hexp : 2 ^ w - 2 = (2 ^ (w - 1) - 1) + (2 ^ (w - 1) - 1) := by
    have hpow : 2 ^ w = 2 * 2 ^ (w - 1) := by rw [← Nat.pow_succ', Nat.succ_eq_add_one, Nat.sub_add_cancel hw]
    have := Nat.two_pow_pos (w - 1)
    omega
  rw [finv, residue_fmul hw, residue_finvLoop hw, BitVec.toNat_one hw, residue_one, one_pow, one_mul, hexp, pow_add]

theorem exec_finv {a : FReg} {s : State} (ha : s.regs.f[a] ≠ 0) (d : FReg) : exec (.finv d a) s =
    .next { s with regs := { s.regs with f := s.regs.f.set d (finv s.regs.f[a] s.regs.modsub), status := 0 } } :=
  if_neg ha

/-- Settles O31: procedure and reference power have the same class. -/
theorem finvWritesTheFermatPower : Obligations.FinvWritesTheFermatPower := by
  refine fun d a s => ⟨fun ha => ?_, fun ha => if_pos ha⟩
  have hw := bits_pos s.width
  rw [exec_finv ha, ofNat_eq_of_residue_eq (fieldpow_lt s.regs.modsub hw _ _)]
  rw [residue_fieldpow, residue_finv hw]

/-! ### Exponentiation -/

/-- The squarings and multiplications of the low `n` bits of the exponent. -/
theorem residue_fexpLoop (hw : 0 < w) (a e c : Word w) (n : Nat) (acc : Word w) :
    residue c (fexpLoop a e c n acc).toNat =
      residue c acc.toNat ^ 2 ^ n * residue c a.toNat ^ (e.toNat % 2 ^ n) := by
  induction n generalizing acc with
  | zero => simp [fexpLoop, Nat.mod_one]
  | succ n ih =>
    have hbit : e.toNat.testBit n = e.getLsbD n := rfl
    rw [fexpLoop, ih, Nat.mod_pow_succ, ← Nat.toNat_testBit, hbit, pow_succ 2 n, mul_comm (2 ^ n) 2, pow_mul, pow_two]
    cases e.getLsbD n with
    | true => rw [if_pos rfl, residue_fmul hw, residue_fmul hw, Bool.toNat_true, Nat.mul_one, pow_add, mul_pow]; ring
    | false => rw [if_neg Bool.false_ne_true, residue_fmul hw, Bool.toNat_false, Nat.mul_zero, Nat.add_zero]

theorem residue_fexp (hw : 0 < w) (a e c : Word w) :
    residue c (fexp a e c).toNat = residue c a.toNat ^ e.toNat := by
  rw [fexp, residue_fexpLoop hw, BitVec.toNat_one hw, residue_one, one_pow, one_mul, Nat.mod_eq_of_lt e.isLt]

theorem exec_fexp (d a b : FReg) (s : State) : exec (.fexp d a b) s = .next { s with regs := { s.regs with
    f := s.regs.f.set d (fexp s.regs.f[a] s.regs.f[b] s.regs.modsub), status := 0 } } := rfl

/-- Settles O32: procedure and reference power have the same class. -/
theorem fexpWritesThePower : Obligations.FexpWritesThePower := by
  intro d a b s
  have hw := bits_pos s.width
  rw [exec_fexp, ofNat_eq_of_residue_eq (fieldpow_lt s.regs.modsub hw _ _)]
  rw [residue_fieldpow, residue_fexp hw]

end Sys2Proof.Machine
end

section
/-! PROOF. The word dividers FDIV and FMDIV (spec/42_field.md R134, R135). FDIV's procedure is the bit-serial division
on numbers; FMDIV's is FDIV of the modulus less the divisor aligned under its top bit. -/

namespace Sys2Proof.Machine

open Polynomial

variable {w : Nat}

/-! ### The word divider -/

theorem toNat_shiftLeft_of_lt {x : Word w} {n : Nat} (h : x.toNat <<< n < 2 ^ w) : (x <<< n).toNat = x.toNat <<< n := by
  rw [BitVec.toNat_shiftLeft, Nat.mod_eq_of_lt h]

theorem toNat_shiftLeft_one_of_lt {q : Word w} (hq : 2 * q.toNat < 2 ^ w) : (q <<< 1).toNat = 2 * q.toNat := by
  have hshift : q.toNat <<< 1 = 2 * q.toNat := by rw [Nat.shiftLeft_eq, Nat.pow_one, Nat.mul_comm]
  rw [toNat_shiftLeft_of_lt (by rwa [hshift]), hshift]

/-- A quotient bit 1 taken in. -/
theorem toNat_shiftLeft_one_or_one (hw : 0 < w) {q : Word w} (hq : 2 * q.toNat < 2 ^ w) :
    ((q <<< 1) ||| 1#w).toNat = 2 * q.toNat + 1 := by
  rw [BitVec.toNat_or, BitVec.toNat_one hw, toNat_shiftLeft_one_of_lt hq, or_one_of_even (Nat.mul_mod_right 2 _)]

/-- While `n` positions are left the quotient has at most `w - n` bits, so no bit of it is lost. -/
theorem quotient_lt {q n bit : Nat} (hn : n + 1 ≤ w) (hq : q < 2 ^ (w - (n + 1))) (hbit : bit ≤ 1) :
    2 * q + bit < 2 ^ (w - n) ∧ 2 * q < 2 ^ w := by
  have hpow : 2 ^ (w - n) = 2 * 2 ^ (w - (n + 1)) := by rw [← Nat.pow_succ']; congr 1; omega
  have hle : 2 ^ (w - n) ≤ 2 ^ w := Nat.pow_le_pow_right (by decide) (Nat.sub_le w n)
  omega

/-- The divider on words goes through the numbers that are its words. -/
theorem toNat_fdivLoop (hw : 0 < w) (b db : Nat) {n : Nat} (hn : n ≤ w) {q r sd : Word w} (hq : q.toNat < 2 ^ (w - n))
    (hsd : sd.toNat = (b <<< n) >>> 1) :
    (fdivLoop db n q r sd).1.toNat = (bitDiv b db n q.toNat r.toNat).1 ∧
    (fdivLoop db n q r sd).2.toNat = (bitDiv b db n q.toNat r.toNat).2 := by
  induction n generalizing q r sd with
  | zero => exact ⟨rfl, rfl⟩
  | succ n ih =>
    have haligned : sd.toNat = b <<< n := hsd.trans (shiftLeft_succ_shiftRight_one b n)
    have hnext : (sd >>> 1).toNat = (b <<< n) >>> 1 := by rw [BitVec.toNat_ushiftRight, haligned]
    rw [fdivLoop, bitDiv, BitVec.testBit_toNat]
    split
    · obtain ⟨hlt, hfits⟩ := quotient_lt hn hq (le_refl 1)
      have hq' := toNat_shiftLeft_one_or_one hw hfits
      have hstep := ih (q := (q <<< 1) ||| 1#w) (r := r ^^^ sd) (by omega) (by rw [hq']; exact hlt) hnext
      rwa [hq', BitVec.toNat_xor, haligned] at hstep
    · obtain ⟨hlt, hfits⟩ := quotient_lt hn hq (Nat.zero_le 1)
      have hq' := toNat_shiftLeft_one_of_lt hfits
      have hstep := ih (q := q <<< 1) (r := r) (by omega) (by rw [hq']; exact hlt) hnext
      rwa [hq'] at hstep

theorem shiftLeft_lt_two_pow {b k m : Nat} (h : b.log2 + k < m) : b <<< k < 2 ^ m := by
  rw [Nat.shiftLeft_eq]
  calc b * 2 ^ k < 2 ^ (b.log2 + 1) * 2 ^ k :=
        Nat.mul_lt_mul_of_pos_right Nat.lt_log2_self (Nat.two_pow_pos k)
    _ = 2 ^ (b.log2 + k + 1) := by rw [← Nat.pow_add, Nat.add_right_comm]
    _ ≤ 2 ^ m := Nat.pow_le_pow_right (by decide) h

theorem toNat_ne_zero {x : Word w} (hx : x ≠ 0) : x.toNat ≠ 0 :=
  fun h => hx (BitVec.eq_of_toNat_eq (h.trans BitVec.toNat_zero.symm))

theorem log2_toNat_lt {x : Word w} (hx : x ≠ 0) : x.toNat.log2 < w := (Nat.log2_lt (toNat_ne_zero hx)).mpr x.isLt

/-- `fdiv` gives quotient and remainder of the words as polynomials (42_field.md R134). -/
theorem toNat_fdiv (hw : 0 < w) (a : Word w) {b : Word w} (hb : b ≠ 0) :
    (fdiv a b).1.toNat = (pdivmod a.toNat b.toNat).1 ∧ (fdiv a b).2.toNat = (pdivmod a.toNat b.toNat).2 := by
  have hbn := toNat_ne_zero hb
  rcases lt_or_ge (fdeg a) (fdeg b) with hlt | hge
  · rw [fdiv, if_pos hlt, pdivmod_of_deg_lt hlt]
    exact ⟨BitVec.toNat_zero, rfl⟩
  · have ha : a ≠ 0 := by
      rintro rfl
      have hlow : (0 : Int) ≤ fdeg b := by rw [fdeg, deg, if_neg hbn]; omega
      rw [fdeg_zero] at hge
      omega
    have halog := log2_toNat_lt ha
    have hsteps : b.toNat.log2 + (fdeg a - fdeg b).toNat < w := by
      simp only [fdeg, deg, if_neg (toNat_ne_zero ha), if_neg hbn] at hge ⊢
      omega
    have hbound : a.toNat < 2 ^ (b.toNat.log2 + ((fdeg a - fdeg b).toNat + 1)) := lt_two_pow_of_deg_le hbn hge
    have hdb : (fdeg b).toNat = b.toNat.log2 := deg_toNat hbn
    rw [fdiv, if_neg (Int.not_lt.mpr hge), ← bitDiv_eq_pdivmod hbn hbound]
    simp only [hdb]
    refine toNat_fdivLoop hw b.toNat b.toNat.log2 (by omega) ?_ ?_
    · rw [BitVec.toNat_zero]; exact Nat.two_pow_pos _
    · rw [toNat_shiftLeft_of_lt (shiftLeft_lt_two_pow hsteps), shiftLeft_succ_shiftRight_one]

/-- A word is given back by its number. -/
theorem ofNat_eq_of_toNat_eq {x : Word w} {n : Nat} (h : x.toNat = n) : BitVec.ofNat w n = x := by
  rw [← h, BitVec.ofNat_toNat, BitVec.setWidth_eq]

theorem exec_fdiv {d e b : FReg} {s : State} (hne : d ≠ e) (hb : s.regs.f[b] ≠ 0) (a : FReg) :
    exec (.fdiv d e a b) s = .next { s with regs := { s.regs with
      f := (s.regs.f.set d (fdiv s.regs.f[a] s.regs.f[b]).1).set e (fdiv s.regs.f[a] s.regs.f[b]).2
      status := 0 } } :=
  (if_neg hne).trans (if_neg hb)

/-- Settles O38: the words FDIV writes have the numbers `pdivmod` gives. -/
theorem fdivWritesQuotientAndRemainder : Obligations.FdivWritesQuotientAndRemainder := by
  refine fun d e a b s hne => ⟨fun hb => ?_, fun hb => (if_neg hne).trans (if_pos hb)⟩
  obtain ⟨hq, hr⟩ := toNat_fdiv (bits_pos s.width) s.regs.f[a] hb
  rw [exec_fdiv hne hb, ofNat_eq_of_toNat_eq hq, ofNat_eq_of_toNat_eq hr]

/-! ### The division of the modulus -/

/-- The divisor aligned under the modulus's top bit, its top bit cut off. -/
theorem toPoly_align {d : Word w} (hd : d ≠ 0) :
    toPoly (d <<< (w - d.toNat.log2)).toNat = X ^ (w - d.toNat.log2) * toPoly d.toNat + X ^ w := by
  have hlog := log2_toNat_lt hd
  have hlow : 2 ^ w ≤ d.toNat <<< (w - d.toNat.log2) := by
    rw [Nat.shiftLeft_eq]
    calc 2 ^ w = 2 ^ d.toNat.log2 * 2 ^ (w - d.toNat.log2) := by rw [← Nat.pow_add, Nat.add_sub_cancel' hlog.le]
      _ ≤ d.toNat * 2 ^ (w - d.toNat.log2) := Nat.mul_le_mul_right _ (Nat.log2_self_le (toNat_ne_zero hd))
  have hhigh : d.toNat <<< (w - d.toNat.log2) < 2 ^ (w + 1) := shiftLeft_lt_two_pow (by omega)
  have hcut : d.toNat <<< (w - d.toNat.log2) = (d <<< (w - d.toNat.log2)).toNat + 2 ^ w * 1 := by
    rw [BitVec.toNat_shiftLeft, Nat.mod_eq_sub_mod hlow, Nat.mod_eq_of_lt (by omega)]
    omega
  rw [← toPoly_shiftLeft, hcut, toPoly_add_two_pow_mul (d <<< (w - d.toNat.log2)).isLt, toPoly_one, mul_one, add_assoc,
    CharTwo.add_self_eq_zero, add_zero]

/-- Dividing the modulus less the aligned divisor divides the modulus, up to the quotient's leading bit
(42_field.md R135). -/
theorem pdivmod_modulus {d : Word w} (hd : d ≠ 0) (c : Word w) :
    pdivmod (modulus c) d.toNat =
      (2 ^ (w - d.toNat.log2) ^^^ (pdivmod (c ^^^ (d <<< (w - d.toNat.log2))).toNat d.toNat).1,
        (pdivmod (c ^^^ (d <<< (w - d.toNat.log2))).toNat d.toNat).2) := by
  obtain ⟨hsum, hdeg⟩ := pdivmod_spec (c ^^^ (d <<< (w - d.toNat.log2))).toNat (toNat_ne_zero hd)
  refine (eq_pdivmod (toNat_ne_zero hd) ?_ hdeg).symm
  rw [toPoly_xor, toPoly_two_pow, add_mul, add_assoc, hsum, BitVec.toNat_xor, toPoly_xor, toPoly_align hd,
    toPoly_modulus]
  calc X ^ (w - d.toNat.log2) * toPoly d.toNat +
        (toPoly c.toNat + (X ^ (w - d.toNat.log2) * toPoly d.toNat + X ^ w))
      = (X ^ (w - d.toNat.log2) * toPoly d.toNat + X ^ (w - d.toNat.log2) * toPoly d.toNat) +
          (X ^ w + toPoly c.toNat) := by ring
    _ = X ^ w + toPoly c.toNat := by rw [CharTwo.add_self_eq_zero, zero_add]

/-- The leading bit of the quotient, unless it does not fit a word. -/
theorem ofNat_two_pow_eq {k : Nat} (hk : k ≤ w) : BitVec.ofNat w (2 ^ k) = if k < w then 1#w <<< k else 0#w := by
  apply BitVec.eq_of_toNat_eq
  rcases hk.lt_or_eq with hlt | rfl
  · rw [if_pos hlt, ← BitVec.twoPow_eq, BitVec.toNat_twoPow, BitVec.toNat_ofNat]
  · rw [if_neg (lt_irrefl k), BitVec.toNat_ofNat, Nat.mod_self, BitVec.toNat_zero]

/-- `fmdiv` gives quotient and remainder of the modulus, the quotient modulo 2^W (42_field.md R135). -/
theorem fmdiv_eq (hw : 0 < w) {d : Word w} (hd : d ≠ 0) (c : Word w) :
    fmdiv d c = (BitVec.ofNat w (pdivmod (modulus c) d.toNat).1, BitVec.ofNat w (pdivmod (modulus c) d.toNat).2) := by
  have hdeg : (fdeg d).toNat = d.toNat.log2 := deg_toNat (toNat_ne_zero hd)
  obtain ⟨hq, hr⟩ := toNat_fdiv hw (c ^^^ (d <<< (w - d.toNat.log2))) hd
  simp only [fmdiv, hdeg]
  rw [pdivmod_modulus hd, BitVec.ofNat_xor, ofNat_two_pow_eq (Nat.sub_le _ _), ofNat_eq_of_toNat_eq hq,
    ofNat_eq_of_toNat_eq hr]

/-- The quotient of the modulus by a divisor of degree at least 1 fits a word. -/
theorem pdivmod_modulus_fst_lt {d : Word w} (hdeg : 1 ≤ d.toNat.log2) (c : Word w) :
    (pdivmod (modulus c) d.toNat).1 < 2 ^ w := by
  have hd : d ≠ 0 := by
    rintro rfl
    rw [BitVec.ofNat_eq_ofNat, BitVec.toNat_zero, Nat.log2_zero] at hdeg
    omega
  have hlog := log2_toNat_lt hd
  rw [pdivmod_modulus hd]
  exact Nat.xor_lt_two_pow (Nat.pow_lt_pow_right (by decide) (by omega))
    (pdivmod_fst_lt_two_pow (toNat_ne_zero hd) (BitVec.isLt _))

theorem one_le_log2_of_ne_one (hw : 0 < w) {d : Word w} (hd : d ≠ 0) (hone : d ≠ 1) : 1 ≤ d.toNat.log2 := by
  have hne : d.toNat ≠ 1 := fun h => hone (BitVec.eq_of_toNat_eq (h.trans (toNat_one hw).symm))
  have hpos := toNat_ne_zero hd
  exact (Nat.le_log2 hpos).mpr (by omega)

/-- Dividing the modulus by 1. -/
theorem pdivmod_one (a : Nat) : pdivmod a 1 = (a, 0) :=
  (eq_pdivmod Nat.one_ne_zero (by simp) (by decide)).symm

theorem ofNat_modulus (c : Word w) : BitVec.ofNat w (modulus c) = c := by
  apply BitVec.eq_of_toNat_eq
  rw [BitVec.toNat_ofNat, modulus, Nat.add_mod_left, Nat.mod_eq_of_lt c.isLt]

theorem exec_fmdiv {d e a : FReg} {s : State} (hne : d ≠ e) (ha : s.regs.f[a] ≠ 0) :
    exec (.fmdiv d e a) s = .next { s with regs := { s.regs with
      f := (s.regs.f.set d (BitVec.ofNat _ (pdivmod (modulus s.regs.modsub) s.regs.f[a].toNat).1)).set e
        (BitVec.ofNat _ (pdivmod (modulus s.regs.modsub) s.regs.f[a].toNat).2)
      status := 0 } } := by
  have hexec : exec (.fmdiv d e a) s = .next { s with regs := { s.regs with
      f := (s.regs.f.set d (fmdiv s.regs.f[a] s.regs.modsub).1).set e (fmdiv s.regs.f[a] s.regs.modsub).2
      status := 0 } } := (if_neg hne).trans (if_neg ha)
  rw [hexec, fmdiv_eq (bits_pos s.width) ha]

/-- Settles O39: FMDIV writes what `pdivmod` gives for the modulus, cut to a word, which only the divisor 1 makes
felt. -/
theorem fmdivDividesTheModulus : Obligations.FmdivDividesTheModulus := by
  intro d e a s hne
  have hw := bits_pos s.width
  refine ⟨fun ha => exec_fmdiv hne ha, fun ha hone => ?_, fun hone => ?_, fun ha => (if_neg hne).trans (if_pos ha)⟩
  · exact pdivmod_modulus_fst_lt (one_le_log2_of_ne_one hw ha hone) s.regs.modsub
  · have ha : s.regs.f[a] ≠ 0 := by
      rw [hone]
      intro hzero
      have h := congrArg BitVec.toNat hzero
      rw [toNat_one hw, BitVec.ofNat_eq_ofNat, BitVec.toNat_zero] at h
      exact Nat.one_ne_zero h
    rw [exec_fmdiv hne ha, hone, toNat_one hw, pdivmod_one, ofNat_modulus]
    rfl

/-- Settles O40: modulo the modulus, quotient times divisor plus remainder is the modulus itself. -/
theorem modulusDivisionProperty : Obligations.ModulusDivisionProperty := by
  intro width d c hdeg
  have hw := bits_pos width
  have hd : d ≠ 0 := by
    rintro rfl
    rw [fdeg_zero] at hdeg
    omega
  have hlog : 1 ≤ d.toNat.log2 := by rw [fdeg, deg, if_neg (toNat_ne_zero hd)] at hdeg; exact_mod_cast hdeg
  obtain ⟨hsum, -⟩ := pdivmod_spec (modulus c) (toNat_ne_zero hd)
  have hrem : (pdivmod (modulus c) d.toNat).2 < 2 ^ width.bits := by
    rw [pdivmod_modulus hd]
    exact pdivmod_snd_lt_two_pow (toNat_ne_zero hd) (BitVec.isLt _)
  refine word_eq_of_residue_eq c ?_
  rw [BitVec.toNat_xor, residue_xor, residue_fmul hw, fmdiv_eq hw hd, BitVec.toNat_ofNat, BitVec.toNat_ofNat,
    Nat.mod_eq_of_lt (pdivmod_modulus_fst_lt hlog c), Nat.mod_eq_of_lt hrem]
  have h := congrArg (AdjoinRoot.mk (toPoly (modulus c))) hsum
  rw [map_add, map_mul, AdjoinRoot.mk_self] at h
  exact h.trans (residue_zero c).symm

end Sys2Proof.Machine
end

section
/-! PROOF. The extended-Euclid engine and the two inverters (spec/43_xgcd.md R162 to R167, spec/42_field.md R123,
R129, R130). Each division of the engine keeps the Bezout relation, the common divisors and a bound on the degrees of
the coefficients (`XgcdInv`); under an irreducible modulus the residue classes are a field of 2^W elements, where both
inverters give the one inverse. -/

namespace Sys2Proof.Machine

open Polynomial

variable {w : Nat}

/-! ### Degrees of sums, products and quotients -/

theorem log2_xor_le (m n : Nat) : (m ^^^ n).log2 ≤ max m.log2 n.log2 := by
  simpa only [← natDegree_toPoly, toPoly_xor] using natDegree_add_le (toPoly m) (toPoly n)

theorem log2_clmul_le (m n : Nat) : (clmul m n).log2 ≤ m.log2 + n.log2 := by
  simpa only [← natDegree_toPoly, toPoly_clmul] using natDegree_mul_le (p := toPoly m) (q := toPoly n)

theorem log2_pdivmod_fst (m : Nat) {n : Nat} (hn : n ≠ 0) : (pdivmod m n).1.log2 = m.log2 - n.log2 := by
  simpa only [← natDegree_toPoly, toPoly_pdivmod_fst m hn] using natDegree_divByMonic (toPoly m) (monic_toPoly hn)

theorem log2_pdivmod_snd_lt (m : Nat) {n : Nat} (hn : n ≠ 0) (hrem : (pdivmod m n).2 ≠ 0) :
    (pdivmod m n).2.log2 < n.log2 := by
  have h := (pdivmod_spec m hn).2
  rw [deg, deg, if_neg hrem, if_neg hn] at h
  exact_mod_cast h

/-- The dividend and the divisor have the common divisors of the divisor and the remainder. -/
theorem dvd_pdivmod_iff (m : Nat) {n : Nat} (hn : n ≠ 0) (p : (ZMod 2)[X]) :
    p ∣ toPoly n ∧ p ∣ toPoly (pdivmod m n).2 ↔ p ∣ toPoly m ∧ p ∣ toPoly n := by
  rw [← (pdivmod_spec m hn).1, and_comm]
  exact and_congr_left fun h => (dvd_add_right (h.mul_left _)).symm

/-! ### The engine -/

/-- What holds before every division of the engine started on `a` and the modulus 2^W + C: the remainders are
multiples of `a`, by the coefficients, modulo the modulus; they have the common divisors of `a` and the modulus; their
degrees fall, and as much as they have fallen the degrees of the coefficients have grown (43_xgcd.md R162, R164). -/
structure XgcdInv (c a : Word w) (rPrev rCur sPrev sCur : Nat) : Prop where
  prev_eq : residue c sPrev * residue c a.toNat = residue c rPrev
  cur_eq : residue c sCur * residue c a.toNat = residue c rCur
  dvd_iff : ∀ p, p ∣ toPoly rPrev ∧ p ∣ toPoly rCur ↔ p ∣ toPoly (modulus c) ∧ p ∣ toPoly a.toNat
  cur_ne : rCur ≠ 0
  lower : rCur.log2 < rPrev.log2
  sCur_le : sCur.log2 + rPrev.log2 ≤ w
  sPrev_le : sPrev.log2 + rCur.log2 ≤ w

/-- `s` is a word and `g` a greatest common divisor of `a` and the modulus with `s * a = g` modulo the modulus. -/
structure IsBezout (c a : Word w) (s g : Nat) : Prop where
  s_lt : s < 2 ^ w
  g_lt : g < 2 ^ w
  g_ne : g ≠ 0
  eq : residue c s * residue c a.toNat = residue c g
  dvd_iff : ∀ p, p ∣ toPoly g ↔ p ∣ toPoly (modulus c) ∧ p ∣ toPoly a.toNat

@[simp] theorem residue_clmul (c : Word w) (m n : Nat) : residue c (clmul m n) = residue c m * residue c n := by
  simp [residue]

theorem residue_pdivmod (c : Word w) (m : Nat) {n : Nat} (hn : n ≠ 0) :
    residue c (pdivmod m n).1 * residue c n + residue c (pdivmod m n).2 = residue c m := by
  simp only [residue, ← map_mul, ← map_add, (pdivmod_spec m hn).1]

theorem lt_two_pow_of_log2_lt {n k : Nat} (h : n.log2 < k) : n < 2 ^ k :=
  Nat.lt_log2_self.trans_le (Nat.pow_le_pow_right (by decide) h)

section Engine

variable {c a : Word w} {rPrev rCur sPrev sCur : Nat}

/-- Before the first division: the remainders are the modulus and `a`, the coefficients 0 and 1. -/
theorem xgcdInv_start (ha : a ≠ 0) : XgcdInv c a (modulus c) a.toNat 0 1 where
  prev_eq := by rw [residue_zero, zero_mul, residue_modulus]
  cur_eq := by rw [residue_one, one_mul]
  dvd_iff _ := Iff.rfl
  cur_ne := toNat_ne_zero ha
  lower := by rw [log2_modulus]; exact log2_toNat_lt ha
  sCur_le := by rw [log2_modulus]; exact (Nat.zero_add w).le
  sPrev_le := by rw [Nat.log2_zero, Nat.zero_add]; exact (log2_toNat_lt ha).le

/-- One division keeps the invariant when the remainder is not zero. -/
theorem XgcdInv.next (h : XgcdInv c a rPrev rCur sPrev sCur) (hrem : (pdivmod rPrev rCur).2 ≠ 0) :
    XgcdInv c a rCur (pdivmod rPrev rCur).2 sCur (sPrev ^^^ clmul (pdivmod rPrev rCur).1 sCur) where
  prev_eq := h.cur_eq
  cur_eq := by
    rw [residue_xor, residue_clmul, add_mul, mul_assoc, h.prev_eq, h.cur_eq, ← residue_pdivmod c rPrev h.cur_ne,
      add_right_comm, residue_add_self, zero_add]
  dvd_iff p := (dvd_pdivmod_iff rPrev h.cur_ne p).trans (h.dvd_iff p)
  cur_ne := hrem
  lower := log2_pdivmod_snd_lt rPrev h.cur_ne hrem
  sCur_le := by
    have hxor := log2_xor_le sPrev (clmul (pdivmod rPrev rCur).1 sCur)
    have hmul := log2_clmul_le (pdivmod rPrev rCur).1 sCur
    rw [log2_pdivmod_fst rPrev h.cur_ne] at hmul
    have hlower := h.lower
    have hcur := h.sCur_le
    have hprev := h.sPrev_le
    omega
  sPrev_le := by
    have hrem' := log2_pdivmod_snd_lt rPrev h.cur_ne hrem
    have hlower := h.lower
    have hcur := h.sCur_le
    omega

/-- When the remainder is zero the divisor is a greatest common divisor. -/
theorem XgcdInv.stop (h : XgcdInv c a rPrev rCur sPrev sCur) (hrem : (pdivmod rPrev rCur).2 = 0) :
    IsBezout c a sCur rCur where
  s_lt := lt_two_pow_of_log2_lt (by have := h.lower; have := h.sCur_le; omega)
  g_lt := lt_two_pow_of_log2_lt (by have := h.lower; have := h.sCur_le; omega)
  g_ne := h.cur_ne
  eq := h.cur_eq
  dvd_iff p := by
    have hdvd := (pdivmod_snd_eq_zero_iff rPrev h.cur_ne).mp hrem
    rw [← h.dvd_iff]
    exact ⟨fun hp => ⟨hp.trans hdvd, hp⟩, fun hp => hp.2⟩

/-- The engine ends with a greatest common divisor, given a division for every degree the remainder can have. -/
theorem isBezout_xgcdLoop {fuel : Nat} (hfuel : rCur.log2 < fuel) (h : XgcdInv c a rPrev rCur sPrev sCur) :
    IsBezout c a (xgcdLoop fuel rPrev rCur sPrev sCur).1 (xgcdLoop fuel rPrev rCur sPrev sCur).2 := by
  induction fuel generalizing rPrev rCur sPrev sCur with
  | zero => omega
  | succ fuel ih =>
    by_cases hrem : (pdivmod rPrev rCur).2 = 0
    · simp only [xgcdLoop, if_pos hrem]
      exact h.stop hrem
    · simp only [xgcdLoop, if_neg hrem]
      have hlower := log2_pdivmod_snd_lt rPrev h.cur_ne hrem
      exact ih (by omega) (h.next hrem)

end Engine

/-- The word FGINV writes and the greatest common divisor of `a` and the modulus (43_xgcd.md R163, R164, R167). -/
theorem isBezout_fginv {a : Word w} (ha : a ≠ 0) (c : Word w) : IsBezout c a (fginv a c).toNat (xgcdCoeff a c).2 := by
  have hlog := log2_toNat_lt ha
  have h : IsBezout c a (xgcdCoeff a c).1 (xgcdCoeff a c).2 := isBezout_xgcdLoop (by omega) (xgcdInv_start ha)
  rwa [fginv, BitVec.toNat_ofNat, Nat.mod_eq_of_lt h.s_lt]

theorem exec_fginv {a : FReg} {s : State} (ha : s.regs.f[a] ≠ 0) (d : FReg) : exec (.fginv d a) s =
    .next { s with regs := { s.regs with f := s.regs.f.set d (fginv s.regs.f[a] s.regs.modsub), status := 0 } } :=
  if_neg ha

/-- A reference product whose class is that of a word is the word. -/
theorem fieldmul_eq_of_residue {c : Word w} {m n g : Nat} (hg : g < 2 ^ w)
    (h : residue c m * residue c n = residue c g) : fieldmul (modulus c) m n = g :=
  eq_of_residue_eq c (fieldmul_lt c m n) hg ((residue_fieldmul c m n).trans h)

/-- Settles O33: what the engine ends with. -/
theorem fginvWritesABezoutCoefficient : Obligations.FginvWritesABezoutCoefficient := by
  refine fun d a s => ⟨fun ha => ?_, fun ha => if_pos ha⟩
  have h := isBezout_fginv ha s.regs.modsub
  obtain ⟨hmodulus, hsource⟩ := (h.dvd_iff _).mp dvd_rfl
  refine ⟨_, _, exec_fginv ha d, fieldmul_eq_of_residue h.g_lt h.eq, h.g_ne, ?_, ?_, fun p hp hpa hpm => ?_⟩
  · exact (pdivmod_snd_eq_zero_iff _ h.g_ne).mpr hsource
  · exact (pdivmod_snd_eq_zero_iff _ h.g_ne).mpr hmodulus
  · rw [pdivmod_snd_eq_zero_iff _ hp] at hpa hpm ⊢
    exact (h.dvd_iff _).mpr ⟨hpm, hpa⟩

/-! ### Irreducible moduli -/

/-- The premise of 42_field.md R123 is irreducibility of the polynomial. -/
theorem irreducible_toPoly_modulus (hw : 0 < w) {c : Word w} (h : IrreducibleModulus (modulus c)) :
    Irreducible (toPoly (modulus c)) := by
  have hne := modulus_ne_zero c
  rw [(monic_toPoly hne).irreducible_iff_natDegree]
  refine ⟨fun hone => ?_, fun f g hf hg hprod => ?_⟩
  · have hdeg := natDegree_toPoly (modulus c)
    rw [hone, natDegree_one, log2_modulus] at hdeg
    omega
  · obtain ⟨d, rfl⟩ := toPoly_surjective f
    have hd : d ≠ 0 := fun hzero => hf.ne_zero (toPoly_eq_zero_iff.mpr hzero)
    have hsum := hf.natDegree_mul hg
    rw [hprod, natDegree_toPoly, natDegree_toPoly, log2_modulus] at hsum
    by_contra hproper
    rw [natDegree_toPoly, not_or] at hproper
    obtain ⟨hdpos, hgpos⟩ := hproper
    have hlt : d < 2 ^ w := lt_two_pow_of_log2_lt (by omega)
    refine h d (by rw [modulus]; omega) ?_ ?_ ((pdivmod_snd_eq_zero_iff _ hd).mpr (Dvd.intro g hprod))
    · rw [deg, if_neg hd]; omega
    · rw [deg, deg, if_neg hd, if_neg hne, log2_modulus]; omega

/-- A word has no factor in common with an irreducible modulus. -/
theorem isBezout_irreducible (hw : 0 < w) {a c : Word w} {s g : Nat} (h : IsBezout c a s g) (ha : a ≠ 0)
    (hirr : IrreducibleModulus (modulus c)) : g = 1 := by
  obtain ⟨hmodulus, hsource⟩ := (h.dvd_iff _).mp dvd_rfl
  rcases (irreducible_toPoly_modulus hw hirr).dvd_iff.mp hmodulus with hunit | hassoc
  · refine toPoly_injective ?_
    rw [toPoly_one]
    exact (monic_toPoly h.g_ne).eq_one_of_isUnit hunit
  · have hdvd : toPoly (modulus c) ∣ toPoly a.toNat := hassoc.dvd.trans hsource
    have hlow : (toPoly a.toNat).degree < (toPoly (modulus c)).degree := by
      rw [degree_modulus, degree_toPoly_lt_iff]; exact a.isLt
    exact absurd (toPoly_eq_zero_iff.mp (eq_zero_of_dvd_of_degree_lt hdvd hlow)) (toNat_ne_zero ha)

/-- Under an irreducible modulus the word FGINV writes is the inverse of its source (42_field.md R130). -/
theorem residue_fginv_mul (hw : 0 < w) {a c : Word w} (ha : a ≠ 0) (hirr : IrreducibleModulus (modulus c)) :
    residue c (fginv a c).toNat * residue c a.toNat = 1 := by
  have h := isBezout_fginv ha c
  rw [h.eq, isBezout_irreducible hw h ha hirr, residue_one]

/-- Settles O34: the greatest common divisor with an irreducible modulus is 1. -/
theorem fginvInvertsUnderAnIrreducibleModulus : Obligations.FginvInvertsUnderAnIrreducibleModulus := by
  intro d a s hirr ha
  have hw := bits_pos s.width
  refine ⟨_, exec_fginv ha d, fieldmul_eq_of_residue (Nat.one_lt_two_pow hw.ne') ?_⟩
  rw [mul_comm, residue_fginv_mul hw ha hirr, residue_one]

/-! ### The two inverters -/

/-- There are 2^W residue classes. -/
theorem card_residue (c : Word w) : Nat.card (AdjoinRoot (toPoly (modulus c))) = 2 ^ w := by
  have hmonic := monic_toPoly (modulus_ne_zero c)
  have hfinite : Module.Finite (ZMod 2) (AdjoinRoot (toPoly (modulus c))) := (AdjoinRoot.powerBasis' hmonic).finite
  rw [Module.natCard_eq_pow_finrank (K := ZMod 2), (AdjoinRoot.powerBasis' hmonic).finrank,
    AdjoinRoot.powerBasis'_dim, natDegree_toPoly, log2_modulus, Nat.card_zmod]

/-- Fermat: in the field of 2^W classes, a class that is not 0 to the power 2^W - 1 is 1. -/
theorem residue_pow_card_sub_one {c : Word w} (hirr : Irreducible (toPoly (modulus c)))
    {x : AdjoinRoot (toPoly (modulus c))} (hx : x ≠ 0) : x ^ (2 ^ w - 1) = 1 := by
  have : Fact (Irreducible (toPoly (modulus c))) := ⟨hirr⟩
  have hpow := congrArg Units.val (pow_card_eq_one' (x := Units.mk0 x hx))
  rwa [Nat.card_units, card_residue, Units.val_pow_eq_pow_val, Units.val_mk0, Units.val_one] at hpow

/-- Under an irreducible modulus the word FINV writes is the inverse of its source (42_field.md R129). -/
theorem residue_finv_mul (hw : 0 < w) {a c : Word w} (ha : a ≠ 0) (hirr : IrreducibleModulus (modulus c)) :
    residue c (finv a c).toNat * residue c a.toNat = 1 := by
  have hne : residue c a.toNat ≠ 0 := by
    intro hzero
    rw [← residue_zero] at hzero
    exact toNat_ne_zero ha (eq_of_residue_eq c a.isLt (Nat.two_pow_pos w) hzero)
  have hexp : 2 ^ w - 1 = (2 ^ w - 2) + 1 := by have := Nat.one_lt_two_pow hw.ne'; omega
  rw [residue_finv hw, ← pow_succ, ← hexp,
    residue_pow_card_sub_one (irreducible_toPoly_modulus hw hirr) hne]

/-- Under an irreducible modulus both inverters give the same word: a class has one inverse and one word. -/
theorem finv_eq_fginv (hw : 0 < w) {a c : Word w} (ha : a ≠ 0) (hirr : IrreducibleModulus (modulus c)) :
    finv a c = fginv a c := by
  refine word_eq_of_residue_eq c (left_inv_eq_right_inv (residue_finv_mul hw ha hirr) ?_)
  rw [mul_comm, residue_fginv_mul hw ha hirr]

/-- Settles O35: FINV and FGINV write the same word, the inverse. -/
theorem inversionPathsAgreeUnderAnIrreducibleModulus :
    Obligations.InversionPathsAgreeUnderAnIrreducibleModulus := by
  intro d a s hirr ha
  have hw := bits_pos s.width
  refine ⟨finv s.regs.f[a] s.regs.modsub, exec_finv ha d, ?_, fieldmul_eq_of_residue (Nat.one_lt_two_pow hw.ne') ?_⟩
  · rw [finv_eq_fginv hw ha hirr]; exact exec_fginv ha d
  · rw [mul_comm, residue_finv_mul hw ha hirr, residue_one]

end Sys2Proof.Machine
end
